-- ==== Sys2Proof/Word.lean ====
section
/-! DEFINITION. The two value types of the engine (00_scope.md R7, R12): unsigned bytes and unsigned 32-bit words. -/

namespace Sys2Proof

/-- `u8` of R12. -/
abbrev Byte := BitVec 8

/-- `u32` of R12: a register, a command word, a round key, a word of a block. -/
abbrev Word := BitVec 32

end Sys2Proof
end

