-- ==== Sys2Proof/Syntax.lean ====
section
/-! DEFINITION. The engine's instructions: the nine legal command words of 30_encoding.md R87, one constructor per
row of spec/opcode_table.json. A command word has no immediate and no register-number field (R85), so no constructor
has an argument: the operands are the argument registers, read when the command completes. -/

namespace Sys2Proof

/-- The commands of R87. -/
inductive Instr where
  /-- KSCHED, word 0x00000001 (41_key_schedule.md R129). -/
  | ksched
  /-- ECB.ENC, word 0x00000002 (43_block_modes.md R176). -/
  | ecbEnc
  /-- ECB.ENC.T, word 0x00000022 (R176 with trace). -/
  | ecbEncT
  /-- ECB.DEC, word 0x00000012 (R177). -/
  | ecbDec
  /-- ECB.DEC.T, word 0x00000032 (R177 with trace). -/
  | ecbDecT
  /-- CBC.ENC, word 0x00000003 (R178). -/
  | cbcEnc
  /-- CBC.ENC.T, word 0x00000023 (R178 with trace). -/
  | cbcEncT
  /-- CBC.DEC, word 0x00000013 (R179). -/
  | cbcDec
  /-- CBC.DEC.T, word 0x00000033 (R179 with trace). -/
  | cbcDecT
  deriving DecidableEq, Repr

end Sys2Proof
end

