-- ==== Sys2Proof/WellFormed.lean ====
section
/-! DEFINITION. Well-formedness. A command of R87 carries no operand (30_encoding.md R85), so every term of `Instr`
is well formed; what can be ill formed is a command WORD, and its three checks are those of R81–R84. -/

namespace Sys2Proof

/-- Every command is well formed: it has no operand field to be out of range (R85). -/
def Instr.wellFormed : Instr → Bool
  | .ksched => true
  | .ecbEnc => true
  | .ecbEncT => true
  | .ecbDec => true
  | .ecbDecT => true
  | .cbcEnc => true
  | .cbcEncT => true
  | .cbcDec => true
  | .cbcDecT => true

/-- R84: bits [31:6] of a legal command word are 0. -/
def wordReservedClear (w : Word) : Bool := w.toNat / 64 == 0

/-- R81: OP, bits [3:0], selects an operation. -/
def wordOpKnown (w : Word) : Bool := 1 ≤ w.toNat % 16 && w.toNat % 16 ≤ 3

/-- R82, R83: KSCHED has DIR = 0 and TRC = 0 (bits 4 and 5). -/
def wordKschedPlain (w : Word) : Bool := w.toNat % 16 != 1 || w.toNat / 16 % 4 == 0

/-- The command word passes the checks of R81–R84. -/
def wordWellFormed (w : Word) : Bool := wordReservedClear w && wordOpKnown w && wordKschedPlain w

end Sys2Proof
end

