-- ==== Sys2Proof/Decode.lean ====
section
/-! DEFINITION. Decoding a command word (30_encoding.md R80–R88), total on all 2^32 words, and the encoder written
from the same field table. -/

namespace Sys2Proof

/-- Why a word is Illegal (R81–R84). The engine reports the same code for all three (60_exceptions.md R201). -/
inductive IllegalWord where
  /-- A bit of [31:6] is set (R84). -/
  | reservedBits
  /-- OP is 0 or 4..15 (R81). -/
  | reservedOp
  /-- KSCHED with DIR or TRC set (R82, R83). -/
  | kschedOption
  deriving DecidableEq, Repr

/-- The result type of R86: a command, or Illegal. -/
inductive Decoded where
  | command (i : Instr)
  | illegal (why : IllegalWord)
  deriving DecidableEq, Repr

/-- OP, bits [3:0] (R80). -/
def fieldOp (w : Word) : BitVec 4 := w.extractLsb' 0 4

/-- DIR, bit [4] (R80). -/
def fieldDir (w : Word) : Bool := w.getLsbD 4

/-- TRC, bit [5] (R80). -/
def fieldTrc (w : Word) : Bool := w.getLsbD 5

/-- RSV, bits [31:6] (R80). -/
def fieldRsv (w : Word) : BitVec 26 := w.extractLsb' 6 26

/-- ECB(dir, trc) of R86. -/
def ecbOf (dir trc : Bool) : Instr :=
  match dir, trc with
  | false, false => .ecbEnc
  | false, true => .ecbEncT
  | true, false => .ecbDec
  | true, true => .ecbDecT

/-- CBC(dir, trc) of R86. -/
def cbcOf (dir trc : Bool) : Instr :=
  match dir, trc with
  | false, false => .cbcEnc
  | false, true => .cbcEncT
  | true, false => .cbcDec
  | true, true => .cbcDecT

/-- `decode` of R86. -/
def decode (w : Word) : Decoded :=
  if fieldRsv w ≠ 0#26 then .illegal .reservedBits
  else if fieldOp w = 1#4 then
    if fieldDir w || fieldTrc w then .illegal .kschedOption else .command .ksched
  else if fieldOp w = 2#4 then .command (ecbOf (fieldDir w) (fieldTrc w))
  else if fieldOp w = 3#4 then .command (cbcOf (fieldDir w) (fieldTrc w))
  else .illegal .reservedOp

/-- A command word from its fields, RSV = 0 (R80). -/
def packWord (op : BitVec 4) (dir trc : Bool) : Word :=
  0#26 ++ BitVec.ofBool trc ++ BitVec.ofBool dir ++ op

/-- The word of a command: OP, DIR and TRC as R81–R83 number them. -/
def encode : Instr → Word
  | .ksched => packWord 1#4 false false
  | .ecbEnc => packWord 2#4 false false
  | .ecbEncT => packWord 2#4 false true
  | .ecbDec => packWord 2#4 true false
  | .ecbDecT => packWord 2#4 true true
  | .cbcEnc => packWord 3#4 false false
  | .cbcEncT => packWord 3#4 false true
  | .cbcDec => packWord 3#4 true false
  | .cbcDecT => packWord 3#4 true true

/-- The mnemonic of R87 and of spec/opcode_table.json. -/
def Instr.mnemonic : Instr → String
  | .ksched => "KSCHED"
  | .ecbEnc => "ECB.ENC"
  | .ecbEncT => "ECB.ENC.T"
  | .ecbDec => "ECB.DEC"
  | .ecbDecT => "ECB.DEC.T"
  | .cbcEnc => "CBC.ENC"
  | .cbcEncT => "CBC.ENC.T"
  | .cbcDec => "CBC.DEC"
  | .cbcDecT => "CBC.DEC.T"

/-- The instruction the decoder reads from an instruction whose bits are `w`, numbered as spec/opcode_table.json
numbers them. A command is one whole 32-bit word (R80), which arrives in CMD whole (20_memory.md R62), so there is no
byte order to lay out; bits above `nbits` are 0. -/
def decodeTableWord (nbits w : Nat) : Option Instr :=
  match decode (BitVec.ofNat 32 (w % 2 ^ nbits)) with
  | .command i => some i
  | .illegal _ => none

end Sys2Proof
end

