-- ==== Sys2Proof/Config.lean ====
section
/-! DEFINITION. What an implementation or its platform fixes and the spec leaves open, and the one free value of the
model. Every constant here is opaque: nothing in Lean can evaluate it, so a claim that mentions it holds for every
value. -/

namespace Sys2Proof

/-- The highest address of the buffer memory of the engine that `State.reset` describes: MEM_BYTES − 1, where
MEM_BYTES is the open parameter of 00_scope.md R8 (1 ≤ MEM_BYTES ≤ 2^32, which a 32-bit highest address says by its
type). DESIGN CHOICE, safe: log 4. -/
opaque Config.memTop : Word

/-- Free value: how many turns the host gets between the n-th issue and its completion (43_block_modes.md R171: the
completion step is always enabled, and nothing orders it against the host's polls). DESIGN CHOICE: log 3, safe for claims
about one engine instance, unsafe for claims that compare the timing of several. -/
opaque Config.hostTurns : Nat → Nat

/-- HOST_BASE, the platform's base address of the register window (20_memory.md R65). -/
opaque Config.hostBase : Nat

/-- HOST_MEM_BASE, where the platform maps the host memory port (20_memory.md R65). -/
opaque Config.hostMemBase : Nat

end Sys2Proof
end

