-- ==== Sys2Proof/Machine/State.lean ====
section
/-! DEFINITION. The machine's state: the tuple of 10_state.md R21, the open parameter MEM_BYTES of 00_scope.md R8,
and the host agent of R20 as a list of pending events with the replies it has got. Plain data only. -/

namespace Sys2Proof.Machine

/-- The reasons of 60_exceptions.md R207, each a model-level stop: the spec gives the run no meaning from there on.
The step that meets one records it in `State.mfault`; the next step answers `Outcome.fault` with it (log 1). -/
inductive Fault where
  /-- HOST_BUSY_ACCESS. Raised by a host step that accesses a register other than by a read of STATUS, or a byte of
  MEM, while STATUS.BUSY = 1 (R234). Safe: the model stops where hardware does something no source fixes. -/
  | hostBusyAccess
  /-- HOST_BAD_ACCESS. Raised by a host register access not 32 bits wide or not at a multiple of 4 (R35), or a host
  memory access at an address ≥ MEM_BYTES (R65). Safe: as above. -/
  | hostBadAccess
  /-- UNDEFINED_READ. Raised by a command or a host read that reads a byte of MEM nothing has written (R74). Safe:
  hardware would return some value no source fixes. -/
  | undefinedRead
  deriving DecidableEq, Repr

/-- Why an instruction has no meaning. -/
inductive Refusal where
  /-- Raised only by an arm of `exec` whose instruction has no meaning yet. Safe: the machine stops. No arm raises it:
  all nine commands have their meaning. -/
  | notModelled (mnemonic : String)
  deriving DecidableEq, Repr

/-- The registers of the map of R24, by name. -/
inductive RegName where
  | cmd | status | src | dst | len | kaddr | ivaddr | taddr
  | rk (i : Fin 32)
  deriving DecidableEq, Repr

/-- One event from outside the engine: a host-port access (the encodings of 30_encoding.md R89), the host's POLL loop
(R90), or the platform's reset (R230). A register access carries its width in bits because R35 speaks of widths other
than 32; the register window is 256 bytes (R24), so an offset is 8 bits. -/
inductive HostEvent where
  | writeReg (off : BitVec 8) (bits : Nat) (value : Word)
  | readReg (off : BitVec 8) (bits : Nat)
  | writeByte (addr : Nat) (value : Byte)
  | readByte (addr : Nat)
  | poll
  | reset
  deriving DecidableEq, Repr

/-- What a host read gave back (R235). -/
inductive Reply where
  | reg (off : BitVec 8) (value : Word)
  | byte (addr : Nat) (value : Byte)
  deriving DecidableEq, Repr

/-- The buffer memory MEM of R37: the bytes that have been written, by rising address. An address that is not listed
is undefined. -/
abbrev Memory := List Host.Cell

/-- The canonical form: addresses strictly rising. (An unlisted address reads as undefined, so no entry can equal what
an unlisted address reads as.) -/
abbrev Memory.wf (m : Memory) : Prop := m.Pairwise fun x y => x.1 < y.1

/-- The state of the machine. -/
structure State where
  /-- CMD, R25. -/
  cmd : Word
  /-- STATUS, R26. -/
  status : Word
  /-- SRC, R27. -/
  src : Word
  /-- DST, R28. -/
  dst : Word
  /-- LEN, R29. -/
  len : Word
  /-- KADDR, R30. -/
  kaddr : Word
  /-- IVADDR, R31. -/
  ivaddr : Word
  /-- TADDR, R32. -/
  taddr : Word
  /-- RKF[0..31], R33. -/
  rkf : Vector Word 32
  /-- MEM, R37. -/
  mem : Memory
  /-- The model-fault record, R38. -/
  mfault : Option Fault
  /-- MEM_BYTES − 1: the open parameter of R8, one value for a machine, changed by no step (log 4). -/
  memTop : Word
  /-- The model's own: pending events of the host and the platform, oldest first (log 2). -/
  host : List HostEvent
  /-- The model's own: what the host's reads gave back, oldest first (log 2). -/
  replies : List Reply
  /-- The model's own: host turns left before the pending command completes (log 3). -/
  turns : Nat
  /-- The model's own: how many commands have been issued, the argument of the free value `Config.hostTurns`
  (log 3). -/
  issued : Nat
  deriving DecidableEq, Repr

/-- The reset values of R39 for an engine whose highest MEM address is `top`, with no event pending. -/
def State.resetOf (top : Word) : State where
  cmd := 0#32
  status := 0#32
  src := 0#32
  dst := 0#32
  len := 0#32
  kaddr := 0#32
  ivaddr := 0#32
  taddr := 0#32
  rkf := Vector.replicate 32 0#32
  mem := []
  mfault := none
  memTop := top
  host := []
  replies := []
  turns := 0
  issued := 0

/-- The machine right after reset (R39, R230, R231), whatever the size of its memory. -/
def State.reset : State := State.resetOf Config.memTop

end Sys2Proof.Machine
end

