-- ==== Sys2Proof/Machine/Flags.lean ====
section
/-! DEFINITION. The engine's only flags: the fields of STATUS (10_state.md R26, R38), the values a step gives it, and
the error codes (60_exceptions.md R201). -/

namespace Sys2Proof.Machine

/-- The error codes of R201 that a command can end with; 0 is no error, 4–15 are never produced. -/
inductive ErrorCode where
  | unsupportedConfig
  | invalidLength
  | addressRange
  deriving DecidableEq, Repr

/-- The number of a code (R201). -/
def ErrorCode.number : ErrorCode → Word
  | .unsupportedConfig => 1#32
  | .invalidLength => 2#32
  | .addressRange => 3#32

/-- STATUS from an issue to its completion (43_block_modes.md R170). -/
def statusBusy : Word := 0x00000001#32

/-- STATUS after a command that ended without error (60_exceptions.md R205). -/
def statusDone : Word := 0x00000002#32

/-- STATUS after a command that ended with an error: 0x00000006 | (code << 4) (60_exceptions.md R204). -/
def statusError (e : ErrorCode) : Word := 0x00000006#32 ||| (e.number <<< 4)

/-- STATUS.BUSY, bit [0]. -/
def State.busy (s : State) : Bool := s.status.getLsbD 0

/-- STATUS.DONE, bit [1]. -/
def State.done (s : State) : Bool := s.status.getLsbD 1

/-- STATUS.ERR, bit [2]. -/
def State.err (s : State) : Bool := s.status.getLsbD 2

/-- STATUS.ERRCODE, bits [7:4]. -/
def State.errCode (s : State) : BitVec 4 := s.status.extractLsb' 4 4

end Sys2Proof.Machine
end

