-- ==== Sys2Proof/Machine/Ops.lean ====
section
/-! DEFINITION. The named operations on the state: MEM (20_memory.md R74), recording a model fault (60_exceptions.md
R207), ending a command (R204, R205), issuing one (43_block_modes.md R170), and reset (70_reset_and_hazards.md R230).
The engine has no exception entry and no exception return (60_exceptions.md R200, R209): an error ends the command and
shows in STATUS, which is `State.failWith`. -/

namespace Sys2Proof.Machine

/-- MEM_BYTES (00_scope.md R8). -/
def State.memBytes (s : State) : Nat := s.memTop.toNat + 1

/-- The byte at an address; `none` is undefined (R37). -/
def Memory.read : Memory → Nat → Option Byte
  | [], _ => none
  | (b, v) :: m, a => if b = a then some v else Memory.read m a

/-- MEM with one byte written; keeps the canonical form. -/
def Memory.write : Memory → Nat → Byte → Memory
  | [], a, v => [(a, v)]
  | (b, w) :: m, a, v =>
    if a < b then (a, v) :: (b, w) :: m
    else if a = b then (a, v) :: m
    else (b, w) :: Memory.write m a v

/-- `MemRead(a, n)` of R74: the n bytes from `a` upwards, or `none` where one of them is undefined. -/
def memRead (m : Memory) (a : Nat) : Nat → Option (List Byte)
  | 0 => some []
  | n + 1 =>
    match m.read a with
    | none => none
    | some v =>
      match memRead m (a + 1) n with
      | none => none
      | some vs => some (v :: vs)

/-- `MemWrite(a, n, v)` of R74: the bytes in increasing address order. -/
def memWrite (m : Memory) (a : Nat) : List Byte → Memory
  | [] => m
  | v :: vs => memWrite (m.write a v) (a + 1) vs

/-- `fault(reason)` of R207: the first model fault is recorded and stays (10_state.md R38). Everything else is left as
it was (log 1). -/
def State.recordFault (r : Fault) (s : State) : State :=
  { s with mfault := match s.mfault with
                     | none => some r
                     | some q => some q }

/-- `raise Error(code)`: a command that ends with an error changes only STATUS (R204). -/
def State.failWith (e : ErrorCode) (s : State) : State := { s with status := statusError e }

/-- A command that has done its body ends without error (R205). -/
def State.finish (s : State) : State := { s with status := statusDone }

/-- The completion step of a command with its checks and body (43_block_modes.md R171): an error changes only STATUS
(60_exceptions.md R204), a body that reads an undefined byte records the model fault (R207), and a body that runs to
its end is followed by STATUS = 0x00000002 (R205). -/
def completeWith (check : Option ErrorCode) (body : State → Option State) (s : State) : State :=
  match check with
  | some e => s.failWith e
  | none =>
    match body s with
    | none => s.recordFault .undefinedRead
    | some t => t.finish

/-- `Issue(w)` of 43_block_modes.md R170. The two other fields are the free interleaving of log 3. How many host turns
the n-th command of one engine instance gets beside the n-th command of another (60_exceptions.md R215) the spec leaves
open: both take it from the one function `Config.hostTurns` of their own counter of issues, so it is the same number
where the counters are equal. DESIGN CHOICE, unsafe: log 3. -/
def State.issue (w : Word) (s : State) : State :=
  { s with
    cmd := w
    status := statusBusy
    turns := Config.hostTurns s.issued
    issued := s.issued + 1 }

/-- The command word `w` stands in CMD, issued, and the completion step is the next one to happen. -/
def State.placeCommand (w : Word) (s : State) : State :=
  { s with cmd := w, status := statusBusy, mfault := none, turns := 0 }

/-- R230: every piece of the engine's state takes its reset value and a pending command is abandoned. The size of MEM,
what the host still has to do, what it has been told and the free value's counter are not the engine's to reset. -/
def State.hardReset (s : State) : State :=
  { State.resetOf s.memTop with host := s.host, replies := s.replies, issued := s.issued }

end Sys2Proof.Machine
end

