-- ==== Sys2Proof/Machine/Operands.lean ====
section
/-! DEFINITION. The operands of a command: the argument registers and the regions of MEM they name (30_encoding.md
R85), and the checks made on them before anything is read or written (60_exceptions.md R202, R203). -/

namespace Sys2Proof.Machine

/-- The two chaining modes. -/
inductive Mode where
  | ecb
  | cbc
  deriving DecidableEq, Repr

/-- The direction, DIR of 30_encoding.md R82. -/
inductive Dir where
  | encrypt
  | decrypt
  deriving DecidableEq, Repr

/-- `inRange(a, n)` of 20_memory.md R66, over unbounded natural numbers. -/
def State.inRange (s : State) (a n : Nat) : Bool := a + n ≤ s.memBytes

/-- nb = LEN / 16, the block count (10_state.md R29). -/
def State.blocks (s : State) : Nat := s.len.toNat / 16

/-- The number of trace bytes of `n` blocks: 32 records of 48 bytes each (00_scope.md R7, 42_round_engine.md R157). -/
def traceBytes (n : Nat) : Nat := 1536 * n

/-- `LEN` is a positive multiple of 16 (R201, R202). -/
def State.lengthOk (s : State) : Bool := s.len.toNat ≠ 0 && s.len.toNat % 16 == 0

/-- `Check(KSCHED)` of R202: only the key region is used, so only it is checked. -/
def checkKsched (s : State) : Option ErrorCode :=
  if s.inRange s.kaddr.toNat 16 then none else some .addressRange

/-- `Check` of an ECB or CBC command, R202, in its order: the length, then the regions the command touches. -/
def checkBlocks (mode : Mode) (trc : Bool) (s : State) : Option ErrorCode :=
  if !s.lengthOk then some .invalidLength
  else if !s.inRange s.kaddr.toNat 16 then some .addressRange
  else if mode = .cbc && !s.inRange s.ivaddr.toNat 16 then some .addressRange
  else if !s.inRange s.src.toNat s.len.toNat then some .addressRange
  else if !s.inRange s.dst.toNat s.len.toNat then some .addressRange
  else if trc && !s.inRange s.taddr.toNat (traceBytes s.blocks) then some .addressRange
  else none

end Sys2Proof.Machine
end

