-- ==== Sys2Proof/Machine/Codec.lean ====
section
/-! DEFINITION. The byte codec: big-endian packing (40_byte_codec.md R100–R107, 20_memory.md R60). -/

namespace Sys2Proof.Machine

/-- BE32 of R100: the byte from the lowest address is the most significant. -/
def be32 (b0 b1 b2 b3 : Byte) : Word :=
  (b0.setWidth 32 <<< 24) ||| (b1.setWidth 32 <<< 16) ||| (b2.setWidth 32 <<< 8) ||| b3.setWidth 32

/-- Byte `k` of a word, k = 0 the most significant: w[31 − 8k : 24 − 8k]. -/
def wordByte (w : Word) (k : Nat) : Byte := w.extractLsb' (24 - 8 * k) 8

/-- UNBE32 of R101. -/
def unbe32 (w : Word) : List Byte := [wordByte w 0, wordByte w 1, wordByte w 2, wordByte w 3]

/-- bytesToWords of R102; not defined where the length is no multiple of 4. -/
def bytesToWords : List Byte → Option (List Word)
  | [] => some []
  | b0 :: b1 :: b2 :: b3 :: bs =>
    match bytesToWords bs with
    | none => none
    | some ws => some (be32 b0 b1 b2 b3 :: ws)
  | _ => none

/-- wordsToBytes of R103. -/
def wordsToBytes : List Word → List Byte
  | [] => []
  | w :: ws => unbe32 w ++ wordsToBytes ws

/-- Exclusive-or of byte strings of equal length (R106). -/
def xorBytes (a b : List Byte) : List Byte := List.zipWith (fun x y => x ^^^ y) a b

/-- Four words: a key MK0..MK3 or K0..K3, a block X0..X3, a chain value, each as its big-endian words (20_memory.md
R63). -/
structure Quad where
  x0 : Word
  x1 : Word
  x2 : Word
  x3 : Word
  deriving DecidableEq, Repr

/-- The words in order. -/
def Quad.words (q : Quad) : List Word := [q.x0, q.x1, q.x2, q.x3]

/-- The 16 bytes of a block (R103). -/
def Quad.bytes (q : Quad) : List Byte := wordsToBytes q.words

/-- The words of a 16-byte string (R102); other lengths make no block. -/
def Quad.ofBytes (bs : List Byte) : Option Quad :=
  match bytesToWords bs with
  | some [x0, x1, x2, x3] => some ⟨x0, x1, x2, x3⟩
  | _ => none

/-- Exclusive-or of two blocks, on packed words: the same as bytewise (R106). -/
def Quad.xor (a b : Quad) : Quad :=
  ⟨a.x0 ^^^ b.x0, a.x1 ^^^ b.x1, a.x2 ^^^ b.x2, a.x3 ^^^ b.x3⟩

/-- The word order reversed, (X3, X2, X1, X0) (42_round_engine.md R153). -/
def Quad.reverse (q : Quad) : Quad := ⟨q.x3, q.x2, q.x1, q.x0⟩

/-- LoadBlock of R104: the 16 bytes at `a` as four words, or `none` where one of them is undefined. -/
def loadBlock (m : Memory) (a : Nat) : Option Quad :=
  match memRead m a 16 with
  | none => none
  | some bs => Quad.ofBytes bs

/-- StoreBytes of R105. -/
def storeBytes (m : Memory) (a : Nat) (v : List Byte) : Memory := memWrite m a v

/-- An output block at `a` (R105 with n = 16). -/
def storeBlock (m : Memory) (a : Nat) (q : Quad) : Memory := storeBytes m a q.bytes

end Sys2Proof.Machine
end

