-- ==== Sys2Proof/Machine/KeySchedule.lean ====
section
/-! DEFINITION. The key schedule (41_key_schedule.md R122–R130) and the meaning of KSCHED. -/

namespace Sys2Proof.Machine

/-- τ of R122: each byte through the S-box, in its own position. -/
def tau (x : Word) : Word :=
  be32 (sbox (wordByte x 0)) (sbox (wordByte x 1)) (sbox (wordByte x 2)) (sbox (wordByte x 3))

/-- rotl of R123, 1 ≤ n ≤ 31. -/
def rotl (x : Word) (n : Nat) : Word := (x <<< n) ||| (x >>> (32 - n))

/-- L′ of R124. -/
def linKey (x : Word) : Word := x ^^^ rotl x 13 ^^^ rotl x 23

/-- T′ of R125. -/
def tKey (x : Word) : Word := linKey (tau x)

/-- Step 2 of R128: K[j] = MK[j] ^ FK[j]. -/
def keyStart (mk : Quad) : Quad :=
  mk.xor ⟨fkTable.getD 0 0, fkTable.getD 1 0, fkTable.getD 2 0, fkTable.getD 3 0⟩

/-- The new key of one round of R128: K[0] ^ T′(K[1] ^ K[2] ^ K[3] ^ CK[i]). -/
def keyRound (k : Quad) (ck : Word) : Word := k.x0 ^^^ tKey (k.x1 ^^^ k.x2 ^^^ k.x3 ^^^ ck)

/-- Step 3 of R128 over a list of round constants: the rolling register shifts each new key in. -/
def keyRounds : List Word → Quad → List Word
  | [], _ => []
  | ck :: cks, k => keyRound k ck :: keyRounds cks ⟨k.x1, k.x2, k.x3, keyRound k ck⟩

/-- One round key for each constant. -/
theorem keyRounds_length (cks : List Word) (k : Quad) : (keyRounds cks k).length = cks.length := by
  induction cks generalizing k with
  | nil => rfl
  | cons ck cks ih => simp [keyRounds, ih]

/-- KeyExpand of R128, in derivation order. -/
def keyExpand (mk : Quad) : Vector Word 32 :=
  ⟨(keyRounds ckTable (keyStart mk)).toArray, by rw [List.size_toArray, keyRounds_length]; rfl⟩

/-- The body of R129: the key region is read and RKF written. -/
def kschedBody (s : State) : Option State :=
  match loadBlock s.mem s.kaddr.toNat with
  | none => none
  | some key => some { s with rkf := keyExpand key }

/-- KSCHED, R129. -/
def execKsched (s : State) : Host.Outcome State Fault Refusal :=
  .next (completeWith (checkKsched s) kschedBody s)

end Sys2Proof.Machine
end

