-- ==== Sys2Proof/Machine/RoundEngine.lean ====
section
/-! DEFINITION. The round engine (42_round_engine.md R150–R157): L, T, one round, the block transform and its trace
records. -/

namespace Sys2Proof.Machine

/-- L of R150. -/
def lin (x : Word) : Word := x ^^^ rotl x 2 ^^^ rotl x 10 ^^^ rotl x 18 ^^^ rotl x 24

/-- T of R151. -/
def tRound (x : Word) : Word := lin (tau x)

/-- What one round computes (R152). -/
structure RoundResult where
  temp : Word
  sboxOut : Word
  linOut : Word
  next : Quad
  deriving DecidableEq, Repr

/-- Round of R152. -/
def roundOf (x : Quad) (rk : Word) : RoundResult :=
  let temp := x.x1 ^^^ x.x2 ^^^ x.x3 ^^^ rk
  let sboxOut := tau temp
  let linOut := lin sboxOut
  ⟨temp, sboxOut, linOut, ⟨x.x1, x.x2, x.x3, x.x0 ^^^ linOut⟩⟩

/-- The trace record of one round (R156), DOC0's RoundState. -/
structure TraceRecord where
  index : Nat
  input : Quad
  roundKey : Word
  sboxOut : Word
  linOut : Word
  output : Quad
  deriving DecidableEq, Repr

/-- The twelve words of a record, in the order of R156. -/
def TraceRecord.words (r : TraceRecord) : List Word :=
  BitVec.ofNat 32 r.index :: (r.input.words ++ [r.roundKey, r.sboxOut, r.linOut] ++ r.output.words)

/-- The 48 bytes of a record (R156). -/
def TraceRecord.bytes (r : TraceRecord) : List Byte := wordsToBytes r.words

/-- The rounds of R153 from round `i` on, one for each key of the sequence: the state they end in and their records. -/
def cryptRounds : Nat → Quad → List Word → Quad × List TraceRecord
  | _, x, [] => (x, [])
  | i, x, rk :: rks =>
    let r := roundOf x rk
    let p := cryptRounds (i + 1) r.next rks
    (p.1, ⟨i, x, rk, r.sboxOut, r.linOut, r.next⟩ :: p.2)

/-- Crypt of R153: the rounds, then the final reversal. -/
def crypt (b : Quad) (rks : List Word) : Quad × List TraceRecord :=
  let p := cryptRounds 0 b rks
  (p.1.reverse, p.2)

/-- The key sequence of a direction (R154): derivation order, or the same keys reversed end to end. -/
def keySequence (dir : Dir) (rk : Vector Word 32) : List Word :=
  match dir with
  | .encrypt => rk.toList
  | .decrypt => rk.toList.reverse

/-- The records of a block written from `a` on, 48 bytes apart, in round order (R157). -/
def writeTrace (m : Memory) (a : Nat) : List TraceRecord → Memory
  | [] => m
  | r :: rs => writeTrace (storeBytes m a r.bytes) (a + 48) rs

end Sys2Proof.Machine
end

