-- ==== Sys2Proof/Machine/BlockModes.lean ====
section
/-! DEFINITION. The ECB and CBC commands (43_block_modes.md R172–R184): one block loop for all of them, and one
meaning for each command word. -/

namespace Sys2Proof.Machine

/-- What goes into the block transform: the input block, for CBC encryption XORed with the chain value (R178). -/
def chainInput (mode : Mode) (dir : Dir) (cv x : Quad) : Quad :=
  match mode, dir with
  | .cbc, .encrypt => x.xor cv
  | _, _ => x

/-- The output block: what comes out of the block transform, for CBC decryption XORed with the chain value (R179). -/
def chainOutput (mode : Mode) (dir : Dir) (cv y : Quad) : Quad :=
  match mode, dir with
  | .cbc, .decrypt => y.xor cv
  | _, _ => y

/-- The next chain value: the computed ciphertext for CBC encryption (R178), the ORIGINAL input block for CBC
decryption (R180). ECB has none. -/
def chainNext (mode : Mode) (dir : Dir) (cv x y : Quad) : Quad :=
  match mode, dir with
  | .cbc, .encrypt => y
  | .cbc, .decrypt => x
  | .ecb, _ => cv

/-- What stays fixed while a command runs over its blocks. -/
structure BlockJob where
  mode : Mode
  dir : Dir
  traced : Bool
  rks : List Word
  src : Nat
  dst : Nat
  taddr : Nat
  deriving DecidableEq, Repr

/-- The MEM writes of block `b`, in the order (3b), (3c) of R174, for the input block `x` read in (3a). -/
def blockWrites (j : BlockJob) (b : Nat) (cv x : Quad) (m : Memory) : Memory :=
  let p := crypt (chainInput j.mode j.dir cv x) j.rks
  let m1 := if j.traced then writeTrace m (j.taddr + traceBytes b) p.2 else m
  storeBlock m1 (j.dst + 16 * b) (chainOutput j.mode j.dir cv p.1)

/-- The chain value after block `b`, whose input block is `x`. -/
def blockChain (j : BlockJob) (cv x : Quad) : Quad :=
  chainNext j.mode j.dir cv x (crypt (chainInput j.mode j.dir cv x) j.rks).1

/-- Step (3) of R174 for `n` blocks from block `b` on; `none` where an input byte is undefined. -/
def runBlocks (j : BlockJob) : Nat → Nat → Quad → Memory → Option Memory
  | 0, _, _, m => some m
  | n + 1, b, cv, m =>
    match loadBlock m (j.src + 16 * b) with
    | none => none
    | some x => runBlocks j n (b + 1) (blockChain j cv x) (blockWrites j b cv x m)

/-- The chain value before block 0: the 16 IV bytes for CBC (R178, R179). ECB uses none and reads none (10_state.md
R31). -/
def firstChain (mode : Mode) (s : State) : Option Quad :=
  match mode with
  | .cbc => loadBlock s.mem s.ivaddr.toNat
  | .ecb => some ⟨0#32, 0#32, 0#32, 0#32⟩

/-- The job of an ECB or CBC command with round keys `rk`. -/
def jobOf (mode : Mode) (dir : Dir) (traced : Bool) (rk : Vector Word 32) (s : State) : BlockJob where
  mode := mode
  dir := dir
  traced := traced
  rks := keySequence dir rk
  src := s.src.toNat
  dst := s.dst.toNat
  taddr := s.taddr.toNat

/-- The body of an ECB or CBC command: the prologue of R173, the IV for CBC, then the blocks (R174). -/
def blockBody (mode : Mode) (dir : Dir) (traced : Bool) (s : State) : Option State :=
  match loadBlock s.mem s.kaddr.toNat with
  | none => none
  | some key =>
    match firstChain mode s with
    | none => none
    | some cv =>
      match runBlocks (jobOf mode dir traced (keyExpand key) s) s.blocks 0 cv s.mem with
      | none => none
      | some m => some { s with rkf := keyExpand key, mem := m }

/-- The completion step of an ECB or CBC command (R171). -/
def blockCommand (mode : Mode) (dir : Dir) (traced : Bool) (s : State) : State :=
  completeWith (checkBlocks mode traced s) (blockBody mode dir traced) s

/-- ECB.ENC, R176. -/
def execEcbEnc (s : State) : Host.Outcome State Fault Refusal := .next (blockCommand .ecb .encrypt false s)

/-- ECB.ENC.T, R176 with trace. -/
def execEcbEncT (s : State) : Host.Outcome State Fault Refusal := .next (blockCommand .ecb .encrypt true s)

/-- ECB.DEC, R177. -/
def execEcbDec (s : State) : Host.Outcome State Fault Refusal := .next (blockCommand .ecb .decrypt false s)

/-- ECB.DEC.T, R177 with trace. -/
def execEcbDecT (s : State) : Host.Outcome State Fault Refusal := .next (blockCommand .ecb .decrypt true s)

/-- CBC.ENC, R178. -/
def execCbcEnc (s : State) : Host.Outcome State Fault Refusal := .next (blockCommand .cbc .encrypt false s)

/-- CBC.ENC.T, R178 with trace. -/
def execCbcEncT (s : State) : Host.Outcome State Fault Refusal := .next (blockCommand .cbc .encrypt true s)

/-- CBC.DEC, R179. -/
def execCbcDec (s : State) : Host.Outcome State Fault Refusal := .next (blockCommand .cbc .decrypt false s)

/-- CBC.DEC.T, R179 with trace. -/
def execCbcDecT (s : State) : Host.Outcome State Fault Refusal := .next (blockCommand .cbc .decrypt true s)

end Sys2Proof.Machine
end

