-- ==== Sys2Proof/Machine/Dispatch.lean ====
section
/-! DEFINITION. One arm per command (30_encoding.md R87): the completion step of that command (43_block_modes.md
R171). -/

namespace Sys2Proof.Machine

def exec (i : Instr) (s : State) : Host.Outcome State Fault Refusal :=
  match i with
  | .ksched => Sys2Proof.Machine.execKsched s
  | .ecbEnc => Sys2Proof.Machine.execEcbEnc s
  | .ecbEncT => Sys2Proof.Machine.execEcbEncT s
  | .ecbDec => Sys2Proof.Machine.execEcbDec s
  | .ecbDecT => Sys2Proof.Machine.execEcbDecT s
  | .cbcEnc => Sys2Proof.Machine.execCbcEnc s
  | .cbcEncT => Sys2Proof.Machine.execCbcEncT s
  | .cbcDec => Sys2Proof.Machine.execCbcDec s
  | .cbcDecT => Sys2Proof.Machine.execCbcDecT s

end Sys2Proof.Machine
end

