-- ==== Sys2Proof/Machine/HostPort.lean ====
section
/-! DEFINITION. The host port: the register map (10_state.md R24–R35), the memory port (20_memory.md R65), the hazard
of a busy engine (70_reset_and_hazards.md R234), and one host or platform event as a step. -/

namespace Sys2Proof.Machine

/-- The register at a word-aligned offset of the window (R24); `none` is a reserved offset (R34). -/
def regOfOffset (off : BitVec 8) : Option RegName :=
  if off.toNat = 0x00 then some .cmd
  else if off.toNat = 0x04 then some .status
  else if off.toNat = 0x08 then some .src
  else if off.toNat = 0x0C then some .dst
  else if off.toNat = 0x10 then some .len
  else if off.toNat = 0x14 then some .kaddr
  else if off.toNat = 0x18 then some .ivaddr
  else if off.toNat = 0x1C then some .taddr
  else if h : 0x40 ≤ off.toNat ∧ off.toNat < 0xC0 then some (.rk ⟨(off.toNat - 0x40) / 4, by omega⟩)
  else none

/-- The offset of a register (R24). -/
def RegName.offset : RegName → BitVec 8
  | .cmd => 0x00#8
  | .status => 0x04#8
  | .src => 0x08#8
  | .dst => 0x0C#8
  | .len => 0x10#8
  | .kaddr => 0x14#8
  | .ivaddr => 0x18#8
  | .taddr => 0x1C#8
  | .rk i => BitVec.ofNat 8 (0x40 + 4 * i.val)

/-- `reg[R]` (00_scope.md R14) and `RKF[i]`. -/
def State.reg (s : State) : RegName → Word
  | .cmd => s.cmd
  | .status => s.status
  | .src => s.src
  | .dst => s.dst
  | .len => s.len
  | .kaddr => s.kaddr
  | .ivaddr => s.ivaddr
  | .taddr => s.taddr
  | .rk i => s.rkf[i.val]

/-- What a host read of a word-aligned offset returns: the register, or 0 at a reserved offset (R34). It has no side
effect (20_memory.md R70). -/
def State.readOffset (s : State) (off : BitVec 8) : Word :=
  match regOfOffset off with
  | some r => s.reg r
  | none => 0#32

/-- A host write of `v` to a register: an argument register takes it (R27–R32), CMD takes it and issues it (R25,
43_block_modes.md R170), STATUS and RK ignore it (R34). -/
def writeRegister (r : RegName) (v : Word) (s : State) : State :=
  match r with
  | .cmd => s.issue v
  | .status => s
  | .src => { s with src := v }
  | .dst => { s with dst := v }
  | .len => { s with len := v }
  | .kaddr => { s with kaddr := v }
  | .ivaddr => { s with ivaddr := v }
  | .taddr => { s with taddr := v }
  | .rk _ => s

/-- A host write of `v` at a word-aligned offset; a reserved offset ignores it (R34). -/
def writeOffset (off : BitVec 8) (v : Word) (s : State) : State :=
  match regOfOffset off with
  | some r => writeRegister r v s
  | none => s

/-- A register access is 32 bits wide at a multiple of 4 (R35). -/
def regAccessOk (off : BitVec 8) (bits : Nat) : Bool := bits == 32 && off.toNat % 4 == 0

/-- A reply to the host (R235). -/
def State.reply (r : Reply) (s : State) : State := { s with replies := s.replies ++ [r] }

/-- A host register write (R25, R34, R35, R234). A malformed access of a busy engine has two reasons in R207 and no order
between them: it records HOST_BAD_ACCESS. DESIGN CHOICE, unsafe: log 5. -/
def hostWriteReg (off : BitVec 8) (bits : Nat) (v : Word) (s : State) : State :=
  if !regAccessOk off bits then s.recordFault .hostBadAccess
  else if s.busy then s.recordFault .hostBusyAccess
  else writeOffset off v s

/-- A host register read; of a busy engine only STATUS may be read (R234). A malformed read of a busy engine records
HOST_BAD_ACCESS: DESIGN CHOICE, unsafe: log 5. -/
def hostReadReg (off : BitVec 8) (bits : Nat) (s : State) : State :=
  if !regAccessOk off bits then s.recordFault .hostBadAccess
  else if s.busy && regOfOffset off ≠ some .status then s.recordFault .hostBusyAccess
  else s.reply (.reg off (s.readOffset off))

/-- A host write of one byte of MEM (20_memory.md R65, R234). Beyond MEM a busy engine too records HOST_BAD_ACCESS:
DESIGN CHOICE, unsafe: log 5. -/
def hostWriteByte (a : Nat) (v : Byte) (s : State) : State :=
  if s.memBytes ≤ a then s.recordFault .hostBadAccess
  else if s.busy then s.recordFault .hostBusyAccess
  else { s with mem := s.mem.write a v }

/-- A host read of one byte of MEM; an undefined byte is the model fault UNDEFINED_READ (60_exceptions.md R207). A read
with two reasons in R207, between which it gives no order: beyond MEM a busy engine too records HOST_BAD_ACCESS, and of
a busy engine an undefined byte records HOST_BUSY_ACCESS, not UNDEFINED_READ. DESIGN CHOICE, unsafe: log 5. -/
def hostReadByte (a : Nat) (s : State) : State :=
  if s.memBytes ≤ a then s.recordFault .hostBadAccess
  else if s.busy then s.recordFault .hostBusyAccess
  else
    match s.mem.read a with
    | none => s.recordFault .undefinedRead
    | some v => s.reply (.byte a v)

/-- One turn of POLL (30_encoding.md R90): STATUS is read, and the loop goes round again while BUSY was 1. `rest` is
what the host does after the loop. -/
def hostPoll (rest : List HostEvent) (s : State) : State :=
  let t := s.reply (.reg RegName.status.offset (s.reg .status))
  if s.busy then { t with host := .poll :: rest } else { t with host := rest }

/-- One event of the host or the platform, `rest` being the events after it. -/
def hostStep (e : HostEvent) (rest : List HostEvent) (s : State) : State :=
  match e with
  | .writeReg off bits v => hostWriteReg off bits v { s with host := rest }
  | .readReg off bits => hostReadReg off bits { s with host := rest }
  | .writeByte a v => hostWriteByte a v { s with host := rest }
  | .readByte a => hostReadByte a { s with host := rest }
  | .poll => hostPoll rest s
  | .reset => { s.hardReset with host := rest }

/-- Where the platform's bus sees a register: HOST_BASE + offset (20_memory.md R65). -/
def busOfRegister (r : RegName) : Nat := Config.hostBase + r.offset.toNat

/-- Where the platform's bus sees a byte of MEM: HOST_MEM_BASE + address (20_memory.md R65). -/
def busOfByte (a : Nat) : Nat := Config.hostMemBase + a

end Sys2Proof.Machine
end

