-- ==== Sys2Proof/Machine/Engine.lean ====
section
/-! DEFINITION. The completion step (43_block_modes.md R171), and which agent moves next. -/

namespace Sys2Proof.Machine

/-- `Complete()` of R171: the word in CMD is decoded now, not at issue; an Illegal word ends with UNSUPPORTED_CONFIG
and no other effect (30_encoding.md R88). -/
def engineStep (s : State) : Host.Outcome State Fault Refusal :=
  match decode s.cmd with
  | .command i => exec i s
  | .illegal _ => .next (s.failWith .unsupportedConfig)

/-- Who moves in a step. -/
inductive Turn where
  /-- The engine completes the pending command. -/
  | engine
  /-- The host or the platform does its next event. -/
  | host (e : HostEvent) (rest : List HostEvent)
  /-- Nothing is pending and the host has nothing to do: the engine holds its state (60_exceptions.md R217). -/
  | idle
  /-- A model fault has been recorded: the run has no meaning from there on (60_exceptions.md R207). -/
  | stopped (r : Fault)
  deriving DecidableEq, Repr

/-- The next turn. A recorded model fault stops the run unless the platform resets the engine next
(70_reset_and_hazards.md R230, log 6). A pending command completes as soon as the host turns of the free interleaving
are used up or the host has nothing to do (R171, log 3). -/
def nextTurn (s : State) : Turn :=
  match s.mfault with
  | some r =>
    match s.host with
    | .reset :: rest => .host .reset rest
    | _ => .stopped r
  | none =>
    match s.host with
    | [] => if s.busy then .engine else .idle
    | e :: rest => if s.busy && s.turns == 0 then .engine else .host e rest

/-- A host turn taken while a command is pending is counted down (log 3). -/
def State.spendTurn (s : State) : State := if s.busy then { s with turns := s.turns - 1 } else s

/-- The step of a turn. -/
def runTurn (t : Turn) (s : State) : Host.Outcome State Fault Refusal :=
  match t with
  | .engine => engineStep s
  | .host e rest => .next (hostStep e rest s.spendTurn)
  | .idle => .next s
  | .stopped r => .fault r

end Sys2Proof.Machine
end

