-- ==== Sys2Proof/Machine/Step.lean ====
section
/-! DEFINITION. One step of the machine, and the placing of a command word for its next step. -/

namespace Sys2Proof.Machine

/-- One step: one turn of one agent (10_state.md R20, 20_memory.md R71). -/
def step (s : State) : Host.Outcome State Fault Refusal := runTurn (nextTurn s) s

/-- `s` with the command word whose bits are `w` in CMD, issued, and its completion the very next step. The engine
fetches nothing (10_state.md R23): a command arrives whole in CMD (20_memory.md R62), so this stands for the host's
write of CMD having just happened (log 8). -/
def State.withFetchWord (s : State) (nbits w : Nat) : State :=
  s.placeCommand (BitVec.ofNat 32 (w % 2 ^ nbits))

end Sys2Proof.Machine
end

