-- ==== Sys2Proof/Machine/Platform.lean ====
section
/-! DEFINITION. Several engine instances on one platform (60_exceptions.md R215): each has its own registers, RKF and
MEM, they share no state, and a step of one is a step of one. Which instance steps next is free; how many host turns the
n-th command of each gets is the model's choice (logs 3 and 13). -/

namespace Sys2Proof.Machine

/-- Instance `k` of the platform takes a step; `none` where there is no such instance or its step stops. -/
def platformStep : List State → Nat → Option (List State)
  | [], _ => none
  | s :: p, 0 =>
    match step s with
    | .next t => some (t :: p)
    | .fault _ => none
    | .refused _ => none
  | s :: p, k + 1 =>
    match platformStep p k with
    | none => none
    | some q => some (s :: q)

end Sys2Proof.Machine
end

