-- ==== Sys2Proof/Machine/HostAsm.lean ====
section
/-! DEFINITION. The host assembly of 30_encoding.md R89 and its pseudo-instructions R90, as the host-port accesses
they stand for. Loops and conditions of a host program other than POLL are host control flow, outside the engine
(R91). -/

namespace Sys2Proof.Machine

/-- One line of a host program. -/
inductive AsmLine where
  /-- `WR reg, value` (R89). -/
  | wr (r : RegName) (v : Word)
  /-- `RD reg` (R89). -/
  | rd (r : RegName)
  /-- `WB addr, hex` (R89): the bytes, byte 0 first. -/
  | wb (addr : Nat) (bytes : List Byte)
  /-- `RB addr, n` (R89). -/
  | rb (addr n : Nat)
  /-- A mnemonic (R89): `WR CMD, word`. -/
  | command (i : Instr)
  /-- A comment (R89): nothing. -/
  | comment (text : String)
  /-- `POLL` (R90). -/
  | poll
  /-- `SETUP src, dst, len, kaddr, ivaddr, taddr` (R90). -/
  | setup (src dst len kaddr ivaddr taddr : Word)
  /-- `RUN mnemonic` (R90). -/
  | run (i : Instr)
  /-- `RDRK i` (R90). -/
  | rdrk (i : Fin 32)
  deriving DecidableEq, Repr

/-- A 32-bit write of a register. -/
def writeEvent (r : RegName) (v : Word) : HostEvent := .writeReg r.offset 32 v

/-- A 32-bit read of a register. -/
def readEvent (r : RegName) : HostEvent := .readReg r.offset 32

/-- Byte writes at rising addresses. -/
def writeByteEvents (a : Nat) : List Byte → List HostEvent
  | [] => []
  | v :: vs => .writeByte a v :: writeByteEvents (a + 1) vs

/-- Byte reads at rising addresses. -/
def readByteEvents (a : Nat) : Nat → List HostEvent
  | 0 => []
  | n + 1 => .readByte a :: readByteEvents (a + 1) n

/-- The host-port accesses of a line. -/
def AsmLine.expand : AsmLine → List HostEvent
  | .wr r v => [writeEvent r v]
  | .rd r => [readEvent r]
  | .wb a bs => writeByteEvents a bs
  | .rb a n => readByteEvents a n
  | .command i => [writeEvent .cmd (encode i)]
  | .comment _ => []
  | .poll => [.poll]
  | .setup src dst len kaddr ivaddr taddr =>
    [writeEvent .src src, writeEvent .dst dst, writeEvent .len len, writeEvent .kaddr kaddr,
      writeEvent .ivaddr ivaddr, writeEvent .taddr taddr]
  | .run i => [writeEvent .cmd (encode i), .poll]
  | .rdrk i => [readEvent (.rk i)]

/-- The host-port accesses of a program, in its order (R89). -/
def assemble : List AsmLine → List HostEvent
  | [] => []
  | l :: ls => l.expand ++ assemble ls

end Sys2Proof.Machine
end

