-- ==== Sys2Proof/Safety.lean ====
section
/-! DEFINITION. What counts as a safe state, a ready command and a finished run, in the terms claims use. -/

namespace Sys2Proof.Machine

/-- A final state of a run (70_reset_and_hazards.md R242): the host has performed its last access, no command is
pending, and no model fault is recorded. -/
abbrev State.finished (s : State) : Prop := s.host = [] ∧ s.busy = false ∧ s.mfault = none

/-- The next step is the engine's completion step (43_block_modes.md R171). -/
abbrev State.engineTurn (s : State) : Prop := s.mfault = none ∧ s.busy = true ∧ (s.host = [] ∨ s.turns = 0)

/-- The engine is idle and the host's next event is `e`. -/
abbrev State.idleHost (s : State) (e : HostEvent) (rest : List HostEvent) : Prop :=
  s.mfault = none ∧ s.busy = false ∧ s.host = e :: rest

/-- The engine is busy and the host gets a turn, its next event being `e` (log 3). -/
abbrev State.busyHost (s : State) (e : HostEvent) (rest : List HostEvent) : Prop :=
  s.mfault = none ∧ s.busy = true ∧ s.turns ≠ 0 ∧ s.host = e :: rest

/-- Every byte of the region is defined (20_memory.md R74). -/
abbrev Memory.definedOn (m : Memory) (a n : Nat) : Prop := ∀ k < n, (m.read (a + k)).isSome = true

/-- Two regions have no byte in common. -/
abbrev apart (a n b m : Nat) : Prop := a + n ≤ b ∨ b + m ≤ a

/-- An address outside a region. -/
abbrev outside (x a n : Nat) : Prop := x < a ∨ a + n ≤ x

/-- The parameters of a command word (30_encoding.md R87): none for KSCHED. -/
def commandShape : Instr → Option (Mode × Dir × Bool)
  | .ksched => none
  | .ecbEnc => some (.ecb, .encrypt, false)
  | .ecbEncT => some (.ecb, .encrypt, true)
  | .ecbDec => some (.ecb, .decrypt, false)
  | .ecbDecT => some (.ecb, .decrypt, true)
  | .cbcEnc => some (.cbc, .encrypt, false)
  | .cbcEncT => some (.cbc, .encrypt, true)
  | .cbcDec => some (.cbc, .decrypt, false)
  | .cbcDecT => some (.cbc, .decrypt, true)

/-- The conditions of 60_exceptions.md R202 under which an ECB or CBC command ends without error: LEN a positive
multiple of 16 and every region in range. -/
abbrev State.argsOk (s : State) (mode : Mode) (traced : Bool) : Prop :=
  (s.len.toNat ≠ 0 ∧ s.len.toNat % 16 = 0) ∧ s.kaddr.toNat + 16 ≤ s.memBytes ∧
    (mode = .cbc → s.ivaddr.toNat + 16 ≤ s.memBytes) ∧ s.src.toNat + s.len.toNat ≤ s.memBytes ∧
    s.dst.toNat + s.len.toNat ≤ s.memBytes ∧ (traced = true → s.taddr.toNat + 1536 * s.blocks ≤ s.memBytes)

/-- Every byte the command reads has been written (70_reset_and_hazards.md R232). -/
abbrev State.inputsDefined (s : State) (mode : Mode) : Prop :=
  s.mem.definedOn s.kaddr.toNat 16 ∧ (mode = .cbc → s.mem.definedOn s.ivaddr.toNat 16) ∧
    s.mem.definedOn s.src.toNat s.len.toNat

/-- Input byte `k` is defined when the command reads it: it was defined before, or an earlier block of the same command
wrote it, as an output byte or as a trace byte (20_memory.md R74, R75, 43_block_modes.md R174). -/
abbrev State.inputByteReadable (s : State) (traced : Bool) (k : Nat) : Prop :=
  (s.mem.read (s.src.toNat + k)).isSome = true ∨ ∃ b < k / 16,
    (s.dst.toNat + 16 * b ≤ s.src.toNat + k ∧ s.src.toNat + k < s.dst.toNat + 16 * b + 16) ∨
      (traced = true ∧ s.taddr.toNat + 1536 * b ≤ s.src.toNat + k ∧ s.src.toNat + k < s.taddr.toNat + 1536 * b + 1536)

/-- Every byte the command reads is defined when it reads it, whatever overlap its regions have. The key and the IV are
read before any write (R75). -/
abbrev State.readsDefined (s : State) (mode : Mode) (traced : Bool) : Prop :=
  s.mem.definedOn s.kaddr.toNat 16 ∧ (mode = .cbc → s.mem.definedOn s.ivaddr.toNat 16) ∧
    ∀ k < s.len.toNat, s.inputByteReadable traced k

/-- The regions let every block be computed from the original input (43_block_modes.md R181, 70_reset_and_hazards.md
R239): the output is in place or apart from the input, and a trace is apart from both. -/
abbrev State.separate (s : State) (traced : Bool) : Prop :=
  (s.dst = s.src ∨ apart s.dst.toNat s.len.toNat s.src.toNat s.len.toNat) ∧
    (traced = true → apart s.taddr.toNat (1536 * s.blocks) s.src.toNat s.len.toNat ∧
      apart s.taddr.toNat (1536 * s.blocks) s.dst.toNat s.len.toNat)

/-- CMD and the argument registers are the same. -/
abbrev State.sameRegisters (s t : State) : Prop :=
  t.cmd = s.cmd ∧ t.src = s.src ∧ t.dst = s.dst ∧ t.len = s.len ∧ t.kaddr = s.kaddr ∧ t.ivaddr = s.ivaddr ∧
    t.taddr = s.taddr

/-- The memory's size and everything the model keeps of the host are the same. -/
abbrev State.sameSurroundings (s t : State) : Prop :=
  t.memTop = s.memTop ∧ t.host = s.host ∧ t.replies = s.replies ∧ t.turns = s.turns ∧ t.issued = s.issued

/-- Every byte outside the output region, and outside the trace region of a traced command, reads as before. -/
abbrev State.sameMemoryOutside (s t : State) (traced : Bool) : Prop :=
  ∀ a, outside a s.dst.toNat s.len.toNat → (traced = true → outside a s.taddr.toNat (1536 * s.blocks)) →
    t.mem.read a = s.mem.read a

/-- STATUS holds one of the six values 10_state.md R26 allows. -/
abbrev State.statusLegal (s : State) : Prop :=
  s.status = 0x00000000#32 ∨ s.status = 0x00000001#32 ∨ s.status = 0x00000002#32 ∨ s.status = 0x00000016#32 ∨
    s.status = 0x00000026#32 ∨ s.status = 0x00000036#32

/-- MEM is canonical and holds no byte outside 0 .. MEM_BYTES−1 (10_state.md R37). -/
abbrev State.memLegal (s : State) : Prop := s.mem.wf ∧ ∀ c ∈ s.mem, c.1 < s.memBytes

/-- RKF holds the reset value or the round keys of some key, all 32 together (10_state.md R33). -/
def State.rkfLegal (s : State) : Prop :=
  s.rkf = Vector.replicate 32 0#32 ∨ ∃ key : Quad, s.rkf = keyExpand key

/-- A state some host program brings the machine to from reset: any memory size, any events. -/
inductive Reachable : State → Prop where
  | start (top : Word) (events : List HostEvent) : Reachable { State.resetOf top with host := events }
  | next (s t : State) : Reachable s → step s = .next t → Reachable t

end Sys2Proof.Machine
end

