-- ==== Sys2Proof/Certificates/Slice0/Obligations.lean ====
section
/-! DEFINITION. The statements for the provers, each from the numbered rules of spec/ its docstring cites. -/

open Sys2Proof Sys2Proof.Machine

/-! ### Command words (30_encoding.md) -/

/-- Decode and encode agree, both ways (R86, R87): the decoder reads each command from its own word, and from no other
word. -/
def Obligations.DecodeAndEncodeAgree : Prop :=
  (∀ i : Instr, i.wellFormed = true → decode (encode i) = .command i) ∧
    ∀ (w : Word) (i : Instr), decode w = .command i → w = encode i

/-- R87: the nine words of its table decode to their commands, and every other word is Illegal. -/
def Obligations.ExactlyNineLegalWords : Prop :=
  (decode 0x00000001#32 = .command .ksched ∧ decode 0x00000002#32 = .command .ecbEnc ∧
    decode 0x00000022#32 = .command .ecbEncT ∧ decode 0x00000012#32 = .command .ecbDec ∧
    decode 0x00000032#32 = .command .ecbDecT ∧ decode 0x00000003#32 = .command .cbcEnc ∧
    decode 0x00000023#32 = .command .cbcEncT ∧ decode 0x00000013#32 = .command .cbcDec ∧
    decode 0x00000033#32 = .command .cbcDecT) ∧
  ∀ w : Word, w ∉ [0x00000001#32, 0x00000002#32, 0x00000022#32, 0x00000012#32, 0x00000032#32, 0x00000003#32,
    0x00000023#32, 0x00000013#32, 0x00000033#32] → ∃ why, decode w = .illegal why

/-- R81–R84: a word decodes to a command exactly when it passes the field checks, made on the word as a number. -/
def Obligations.DecodeFollowsFieldChecks : Prop :=
  ∀ w : Word, (∃ i, decode w = .command i) ↔ wordWellFormed w = true

/-- A few words written out bit by bit from R80: RSV ‖ TRC ‖ DIR ‖ OP. -/
def Obligations.SampleWordsDecode : Prop :=
  decode (0b00000000000000000000000000#26 ++ 0b0#1 ++ 0b0#1 ++ 0b0001#4) = .command .ksched ∧
    decode (0b00000000000000000000000000#26 ++ 0b1#1 ++ 0b0#1 ++ 0b0010#4) = .command .ecbEncT ∧
    decode (0b00000000000000000000000000#26 ++ 0b0#1 ++ 0b1#1 ++ 0b0011#4) = .command .cbcDec

/-- R88: an illegal word in CMD completes with UNSUPPORTED_CONFIG and no other effect. -/
def Obligations.IllegalWordReportsUnsupportedConfig : Prop :=
  ∀ s : State, s.engineTurn →
    s.cmd ∉ [0x00000001#32, 0x00000002#32, 0x00000022#32, 0x00000012#32, 0x00000032#32, 0x00000003#32,
      0x00000023#32, 0x00000013#32, 0x00000033#32] →
    step s = .next { s with status := 0x00000016#32 }

/-! ### A step runs the decoded command (43_block_modes.md R171) -/

/-- R171: at the completion step, the command decoded from CMD is executed, and nothing is added around it. The second
clause is the model's own (log 8, DESIGN CHOICE; the spec places no word): a word that withFetchWord places is the one
the very next step executes, over a recorded model fault too. -/
def Obligations.StepRunsDecodedInstruction : Prop :=
  (∀ (s : State) (i : Instr), s.engineTurn → decode s.cmd = .command i → step s = exec i s) ∧
    ∀ (s : State) (w : Nat) (i : Instr), decodeTableWord 32 w = some i →
      step (s.withFetchWord 32 w) = exec i (s.withFetchWord 32 w)

/-! ### KSCHED (41_key_schedule.md R129) -/

/-- R129, R205: with the key region in range and its 16 bytes defined, KSCHED writes the round keys of those bytes to
RKF, sets STATUS to 0x00000002 and changes nothing else. -/
def Obligations.KschedWritesRoundKeys : Prop :=
  ∀ (s : State) (key : Quad), s.kaddr.toNat + 16 ≤ s.memBytes → memRead s.mem s.kaddr.toNat 16 = some key.bytes →
    exec .ksched s = .next { s with rkf := keyExpand key, status := 0x00000002#32 }

/-- R129, R204: KSCHED with KADDR + 16 > MEM_BYTES, computed without wrap-around, ends with ADDRESS_RANGE and changes
only STATUS. -/
def Obligations.KschedRangeErrorIsPrecise : Prop :=
  ∀ s : State, s.memBytes < s.kaddr.toNat + 16 → exec .ksched s = .next { s with status := 0x00000036#32 }

/-- The frame of KSCHED (R129): it never writes MEM, CMD or an argument register, and RKF only on success. -/
def Obligations.KschedFrame : Prop :=
  ∀ s t : State, exec .ksched s = .next t →
    s.sameRegisters t ∧ s.sameSurroundings t ∧ (∀ a, t.mem.read a = s.mem.read a) ∧ t.mem = s.mem ∧
      (t.status ≠ 0x00000002#32 → t.rkf = s.rkf) ∧
      (t.mfault ≠ s.mfault → t.mfault = some .undefinedRead ∧ t.status = s.status ∧ t.rkf = s.rkf)

/-! ### The key schedule (R120–R130) -/

/-- R128, R124: the round keys follow the recurrence K(i+4) = K(i) ^ L′(τ(K(i+1) ^ K(i+2) ^ K(i+3) ^ CK[i])),
RK[i] = K(i+4), from K(j) = MK[j] ^ FK[j], with L′(u) = u ^ rotl(u, 13) ^ rotl(u, 23). The values of FK and CK are
PRESUMED (log 7). -/
def Obligations.KeyExpandRecurrence : Prop :=
  ∀ key : Quad, ∃ K : Nat → Word,
    (K 0 = key.x0 ^^^ 0xA3B1BAC6#32 ∧ K 1 = key.x1 ^^^ 0x56AA3350#32 ∧ K 2 = key.x2 ^^^ 0x677D9197#32 ∧
      K 3 = key.x3 ^^^ 0xB27022DC#32) ∧
    ∀ i : Fin 32, ∃ u : Word,
      u = tau (K (i.val + 1) ^^^ K (i.val + 2) ^^^ K (i.val + 3) ^^^ ckTable.getD i.val 0#32) ∧
      K (i.val + 4) = K i.val ^^^ (u ^^^ rotl u 13 ^^^ rotl u 23) ∧
      (keyExpand key)[i.val] = K (i.val + 4)

/-- R121: SBOX is a permutation of the byte values. -/
def Obligations.SboxIsPermutation : Prop :=
  (∀ x y : Byte, sbox x = sbox y → x = y) ∧ ∀ y : Byte, ∃ x : Byte, sbox x = y

/-- R127: byte j of CK[i] is (4·i + j)·7 mod 256, j = 0 the most significant. -/
def Obligations.RoundConstantFormula : Prop :=
  ckTable.length = 32 ∧ ∀ i < 32, ∀ j < 4, (wordByte (ckTable.getD i 0#32) j).toNat = (4 * i + j) * 7 % 256

/-- R122: each output byte of τ is the S-box entry of the input byte in the same position, and of nothing else. -/
def Obligations.TauActsOnEachByteLane : Prop :=
  ∀ (x : Word) (k : Nat), k < 4 → wordByte (tau x) k = sbox (wordByte x k)

/-- R123: bit j of rotl(x, n) is bit (j − n) mod 32 of x. -/
def Obligations.RotlMovesEachBit : Prop :=
  ∀ (x : Word) (n j : Nat), 1 ≤ n → n ≤ 31 → j < 32 → (rotl x n).getLsbD j = x.getLsbD ((j + 32 - n) % 32)

/-! ### The byte codec (40_byte_codec.md) -/

/-- R102, R103: bytesToWords is defined exactly on lengths that are multiples of 4, its j-th word is BE32 of the bytes
4j .. 4j+3, and wordsToBytes takes it back. -/
def Obligations.WordPackingIsFaithful : Prop :=
  ∀ bs : List Byte,
    ((bytesToWords bs).isSome = true ↔ bs.length % 4 = 0) ∧
    ∀ ws, bytesToWords bs = some ws →
      wordsToBytes ws = bs ∧ 4 * ws.length = bs.length ∧
      ∀ j < ws.length, ws.getD j 0#32 =
        be32 (bs.getD (4 * j) 0#8) (bs.getD (4 * j + 1) 0#8) (bs.getD (4 * j + 2) 0#8) (bs.getD (4 * j + 3) 0#8)

/-- R106: packing commutes with the exclusive-or of blocks. -/
def Obligations.BlockXorIsBytewise : Prop :=
  ∀ a b : Quad, (a.xor b).bytes = xorBytes a.bytes b.bytes

/-! ### The round engine (42_round_engine.md) -/

/-- R150–R153, R156: Crypt runs one round for each of the 32 keys in order, with L(u) = u ^ rotl(u, 2) ^ rotl(u, 10) ^
rotl(u, 18) ^ rotl(u, 24); each round's record holds its index, input state, key, S-box output, L output and output
state, and the output block is the last four words reversed. -/
def Obligations.CryptRunsThirtyTwoRounds : Prop :=
  ∀ (b : Quad) (rks : List Word), rks.length = 32 → ∃ X : Nat → Word,
    (X 0 = b.x0 ∧ X 1 = b.x1 ∧ X 2 = b.x2 ∧ X 3 = b.x3) ∧
    (crypt b rks).1 = ⟨X 35, X 34, X 33, X 32⟩ ∧ (crypt b rks).2.length = 32 ∧
    ∀ i < 32, ∃ u v : Word,
      u = tau (X (i + 1) ^^^ X (i + 2) ^^^ X (i + 3) ^^^ rks.getD i 0#32) ∧
      v = u ^^^ rotl u 2 ^^^ rotl u 10 ^^^ rotl u 18 ^^^ rotl u 24 ∧ X (i + 4) = X i ^^^ v ∧
      (crypt b rks).2[i]? = some
        { index := i
          input := ⟨X i, X (i + 1), X (i + 2), X (i + 3)⟩
          roundKey := rks.getD i 0#32
          sboxOut := u
          linOut := v
          output := ⟨X (i + 1), X (i + 2), X (i + 3), X (i + 4)⟩ }

/-- R152: for a fixed round key the round is a bijection on the state. -/
def Obligations.RoundIsBijective : Prop :=
  ∀ rk : Word, (∀ x y : Quad, (roundOf x rk).next = (roundOf y rk).next → x = y) ∧
    ∀ y : Quad, ∃ x : Quad, (roundOf x rk).next = y

/-- R155: Crypt with the reversed key sequence undoes Crypt. -/
def Obligations.DecryptionInvertsEncryption : Prop :=
  (∀ (b : Quad) (rks : List Word), (crypt (crypt b rks).1 rks.reverse).1 = b) ∧
    ∀ b key : Quad, (crypt (crypt b (keySequence .encrypt (keyExpand key))).1 (keySequence .decrypt (keyExpand key))).1 = b

/-- R154: an encryption uses RK[i] in round i, a decryption RK[31 − i]. -/
def Obligations.KeyOrderFollowsDirection : Prop :=
  ∀ (rk : Vector Word 32) (i : Fin 32),
    (keySequence .encrypt rk)[i.val]? = some rk[i.val] ∧ (keySequence .decrypt rk)[i.val]? = some rk[31 - i.val]

/-- R156: the twelve words of a record, big-endian, in its order: 48 bytes. -/
def Obligations.TraceRecordLayout : Prop :=
  ∀ r : TraceRecord, r.bytes.length = 48 ∧
    bytesToWords r.bytes = some [BitVec.ofNat 32 r.index, r.input.x0, r.input.x1, r.input.x2, r.input.x3, r.roundKey,
      r.sboxOut, r.linOut, r.output.x0, r.output.x1, r.output.x2, r.output.x3]

/-! ### The ECB and CBC commands (43_block_modes.md), each named in a statement that says where it completes -/

/-- R173, R205, with R75: ECB.ENC, ECB.ENC.T, ECB.DEC, ECB.DEC.T, CBC.ENC, CBC.ENC.T, CBC.DEC and CBC.DEC.T, whatever
overlap their regions have, complete when LEN is a positive multiple of 16, the regions are in range and every byte they
read is defined when they read it (before the command, or by an earlier block of it): RKF holds the key's round keys in
derivation order, STATUS is 0x00000002, and nothing outside the output region and the trace region changes. -/
def Obligations.BlockCommandsComplete : Prop :=
  ∀ (i : Instr) (mode : Mode) (dir : Dir) (traced : Bool) (s : State),
    commandShape i = some (mode, dir, traced) → s.argsOk mode traced → s.readsDefined mode traced →
    ∃ (t : State) (key : Quad), exec i s = .next t ∧ memRead s.mem s.kaddr.toNat 16 = some key.bytes ∧ t.rkf = keyExpand key ∧
      t.status = 0x00000002#32 ∧ t.mfault = s.mfault ∧ s.sameRegisters t ∧ s.sameSurroundings t ∧
      s.sameMemoryOutside t traced ∧ t.mem.definedOn s.dst.toNat s.len.toNat ∧
      (traced = true → t.mem.definedOn s.taddr.toNat (1536 * s.blocks))

/-- R176: ECB.ENC and ECB.ENC.T write to each block of DST the encryption, with RK in derivation order, of the same
block of SRC as it stood before the command (in place, or with the output apart from the input). -/
def Obligations.EcbEncryptsEachBlock : Prop :=
  ∀ (i : Instr) (traced : Bool) (s : State), (i = .ecbEnc ∧ traced = false ∨ i = .ecbEncT ∧ traced = true) →
    s.argsOk .ecb traced → s.inputsDefined .ecb → s.separate traced →
    ∃ (t : State) (key : Quad), exec i s = .next t ∧ memRead s.mem s.kaddr.toNat 16 = some key.bytes ∧ t.rkf = keyExpand key ∧
      t.status = 0x00000002#32 ∧
      ∀ b < s.blocks, ∃ x, memRead s.mem (s.src.toNat + 16 * b) 16 = some x.bytes ∧
        memRead t.mem (s.dst.toNat + 16 * b) 16 = some (crypt x (keyExpand key).toList).1.bytes

/-- R177: ECB.DEC and ECB.DEC.T do the same with the keys reversed end to end. RKF still holds derivation order. -/
def Obligations.EcbDecryptsEachBlock : Prop :=
  ∀ (i : Instr) (traced : Bool) (s : State), (i = .ecbDec ∧ traced = false ∨ i = .ecbDecT ∧ traced = true) →
    s.argsOk .ecb traced → s.inputsDefined .ecb → s.separate traced →
    ∃ (t : State) (key : Quad), exec i s = .next t ∧ memRead s.mem s.kaddr.toNat 16 = some key.bytes ∧ t.rkf = keyExpand key ∧
      t.status = 0x00000002#32 ∧
      ∀ b < s.blocks, ∃ x, memRead s.mem (s.src.toNat + 16 * b) 16 = some x.bytes ∧
        memRead t.mem (s.dst.toNat + 16 * b) 16 = some (crypt x (keyExpand key).toList.reverse).1.bytes

/-- R178: CBC.ENC and CBC.ENC.T write to block b of DST the encryption of input block b XORed with the chain value,
which is the IV for block 0 and output block b − 1 after it. -/
def Obligations.CbcEncryptChains : Prop :=
  ∀ (i : Instr) (traced : Bool) (s : State), (i = .cbcEnc ∧ traced = false ∨ i = .cbcEncT ∧ traced = true) →
    s.argsOk .cbc traced → s.inputsDefined .cbc → s.separate traced →
    ∃ (t : State) (key iv : Quad) (y : Nat → Quad), exec i s = .next t ∧ memRead s.mem s.kaddr.toNat 16 = some key.bytes ∧
      memRead s.mem s.ivaddr.toNat 16 = some iv.bytes ∧ t.rkf = keyExpand key ∧ t.status = 0x00000002#32 ∧
      ∀ b < s.blocks, ∃ p : Quad, memRead s.mem (s.src.toNat + 16 * b) 16 = some p.bytes ∧
        memRead t.mem (s.dst.toNat + 16 * b) 16 = some (y b).bytes ∧
        y b = (crypt (p.xor (if b = 0 then iv else y (b - 1))) (keyExpand key).toList).1

/-- R179, R180: CBC.DEC and CBC.DEC.T write to block b of DST the decryption of input block b XORed with the IV for
block 0, and with the ORIGINAL input block b − 1 after it. -/
def Obligations.CbcDecryptChainsOriginal : Prop :=
  ∀ (i : Instr) (traced : Bool) (s : State), (i = .cbcDec ∧ traced = false ∨ i = .cbcDecT ∧ traced = true) →
    s.argsOk .cbc traced → s.inputsDefined .cbc → s.separate traced →
    ∃ (t : State) (key iv : Quad) (c : Nat → Quad), exec i s = .next t ∧ memRead s.mem s.kaddr.toNat 16 = some key.bytes ∧
      memRead s.mem s.ivaddr.toNat 16 = some iv.bytes ∧ t.rkf = keyExpand key ∧ t.status = 0x00000002#32 ∧
      ∀ b < s.blocks, memRead s.mem (s.src.toNat + 16 * b) 16 = some (c b).bytes ∧
        memRead t.mem (s.dst.toNat + 16 * b) 16 =
          some ((crypt (c b) (keyExpand key).toList.reverse).1.xor (if b = 0 then iv else c (b - 1))).bytes

/-- R157, R175: a traced command writes record r of block b at TADDR + 1536·b + 48·r, the record of the block transform
of what enters it: the input block for ECB.ENC.T, ECB.DEC.T and CBC.DEC.T, the chained block for CBC.ENC.T. -/
def Obligations.TraceRecordsAreWritten : Prop :=
  ∀ (i : Instr) (mode : Mode) (dir : Dir) (s : State), commandShape i = some (mode, dir, true) →
    s.argsOk mode true → s.inputsDefined mode → s.separate true →
    ∃ (t : State) (key : Quad), exec i s = .next t ∧ memRead s.mem s.kaddr.toNat 16 = some key.bytes ∧
      ∀ b < s.blocks, ∃ x z : Quad, memRead s.mem (s.src.toNat + 16 * b) 16 = some x.bytes ∧
        (if i = .cbcEncT then
            ∃ cv : Quad, z = x.xor cv ∧
              (if b = 0 then memRead s.mem s.ivaddr.toNat 16 = some cv.bytes
                else memRead t.mem (s.dst.toNat + 16 * (b - 1)) 16 = some cv.bytes)
          else z = x) ∧
        ∀ r < 32, ∃ rec, (crypt z (keySequence dir (keyExpand key))).2[r]? = some rec ∧
          memRead t.mem (s.taddr.toNat + 1536 * b + 48 * r) 48 = some rec.bytes

/-- R174, R75: whatever overlap the regions of an ECB or CBC command have, and even where an input byte was undefined
before the command and an earlier block of it writes that byte, MEM ends as the access order leaves it: the key and the
IV are read from the first memory, and each block reads its input from the memory the blocks before it left, writes its
trace records in order, then its output. CBC.ENC chains the computed block and CBC.DEC the input block as read
(R178–R180). -/
def Obligations.OverlapsFollowAccessOrder : Prop :=
  ∀ (i : Instr) (mode : Mode) (dir : Dir) (traced : Bool) (s : State),
    commandShape i = some (mode, dir, traced) → s.argsOk mode traced → s.readsDefined mode traced →
    ∃ (t : State) (key : Quad) (cv x : Nat → Quad) (m : Nat → Memory), exec i s = .next t ∧
      memRead s.mem s.kaddr.toNat 16 = some key.bytes ∧ t.rkf = keyExpand key ∧ t.status = 0x00000002#32 ∧
      (mode = .cbc → memRead s.mem s.ivaddr.toNat 16 = some (cv 0).bytes) ∧ m 0 = s.mem ∧ t.mem = m s.blocks ∧
      ∀ b < s.blocks, memRead (m b) (s.src.toNat + 16 * b) 16 = some (x b).bytes ∧
        ∃ p, p = crypt (if mode = .cbc ∧ dir = .encrypt then (x b).xor (cv b) else x b) (keySequence dir (keyExpand key)) ∧
          cv (b + 1) = (if mode = .cbc then if dir = .encrypt then p.1 else x b else cv b) ∧
          m (b + 1) = memWrite
            (if traced = true then
              (List.range 32).foldl (fun m r => memWrite m (s.taddr.toNat + 1536 * b + 48 * r)
                ((p.2[r]?.map TraceRecord.bytes).getD [])) (m b)
            else m b)
            (s.dst.toNat + 16 * b) (if mode = .cbc ∧ dir = .decrypt then p.1.xor (cv b) else p.1).bytes

/-- The frame of the eight ECB and CBC commands (R174, R204, R208): CMD, the argument registers, the memory's size and
all the model keeps of the host are unchanged; every byte outside the output region, and outside the trace region of a
traced command, reads as before; and unless STATUS is 0x00000002 afterwards, MEM and RKF are unchanged. -/
def Obligations.BlockCommandsFrame : Prop :=
  ∀ (i : Instr) (mode : Mode) (dir : Dir) (traced : Bool) (s t : State),
    commandShape i = some (mode, dir, traced) → exec i s = .next t →
    s.sameRegisters t ∧ s.sameSurroundings t ∧ s.sameMemoryOutside t traced ∧
      (t.status ≠ 0x00000002#32 → t.mem = s.mem ∧ t.rkf = s.rkf) ∧
      (t.mfault ≠ s.mfault → t.mfault = some .undefinedRead ∧ t.mem = s.mem ∧ t.rkf = s.rkf ∧ t.status = s.status)

/-- R202, R203: with LEN = 0 or LEN mod 16 ≠ 0 every ECB and CBC command ends with INVALID_LENGTH, whatever its regions,
and changes only STATUS. -/
def Obligations.InvalidLengthOutranksRange : Prop :=
  ∀ (i : Instr) (mode : Mode) (dir : Dir) (traced : Bool) (s : State),
    commandShape i = some (mode, dir, traced) → (s.len.toNat = 0 ∨ s.len.toNat % 16 ≠ 0) →
    exec i s = .next { s with status := 0x00000026#32 }

/-- R202, R204: with a valid LEN and a region it would touch out of range, an ECB or CBC command ends with
ADDRESS_RANGE and changes only STATUS. Registers it does not use are not checked. -/
def Obligations.AddressRangeIsPrecise : Prop :=
  ∀ (i : Instr) (mode : Mode) (dir : Dir) (traced : Bool) (s : State),
    commandShape i = some (mode, dir, traced) → s.len.toNat ≠ 0 → s.len.toNat % 16 = 0 →
    (s.memBytes < s.kaddr.toNat + 16 ∨ (mode = .cbc ∧ s.memBytes < s.ivaddr.toNat + 16) ∨
      s.memBytes < s.src.toNat + s.len.toNat ∨ s.memBytes < s.dst.toNat + s.len.toNat ∨
      (traced = true ∧ s.memBytes < s.taddr.toNat + 1536 * s.blocks)) →
    exec i s = .next { s with status := 0x00000036#32 }

/-- R74, R75, R129, R174, R176–R179: an ECB or CBC command records UNDEFINED_READ, whatever overlap its regions have, when
a byte of the key or of the IV (CBC only) is undefined before it, or a byte of the input is undefined before it and no
earlier block of the command writes that byte; so does KSCHED over an undefined byte of the key. That everything else
stays as it was is the model's choice (log 1). -/
def Obligations.UndefinedInputsAreRecorded : Prop :=
  (∀ (i : Instr) (mode : Mode) (dir : Dir) (traced : Bool) (s : State),
    commandShape i = some (mode, dir, traced) → s.mfault = none → s.argsOk mode traced →
    ¬ s.readsDefined mode traced → exec i s = .next { s with mfault := some .undefinedRead }) ∧
  ∀ s : State, s.mfault = none → s.kaddr.toNat + 16 ≤ s.memBytes → ¬ s.mem.definedOn s.kaddr.toNat 16 →
    exec .ksched s = .next { s with mfault := some .undefinedRead }

/-- R204: a command that ends with an error changes only STATUS, to 0x00000006 | (code << 4) with a code of R201. -/
def Obligations.ErrorsChangeOnlyStatus : Prop :=
  ∀ s t : State, s.engineTurn → step s = .next t → t.busy = false → t.err = true →
    ∃ code : Word, (code = 1#32 ∨ code = 2#32 ∨ code = 3#32) ∧
      t = { s with status := 0x00000006#32 ||| (code <<< 4) }

/-- R181: in place, an ECB or CBC command leaves at DST the blocks it leaves at a DST region disjoint from every other
region. A traced command's trace must lie apart from the blocks (else its records overwrite them in place only). -/
def Obligations.InPlaceEqualsDisjoint : Prop :=
  ∀ (i : Instr) (mode : Mode) (dir : Dir) (traced : Bool) (s : State) (d : Word),
    commandShape i = some (mode, dir, traced) → s.dst = s.src → s.argsOk mode traced →
    { s with dst := d }.argsOk mode traced → s.inputsDefined mode → s.separate traced →
    { s with dst := d }.separate traced → d ≠ s.src →
    ∃ t u, exec i s = .next t ∧ exec i { s with dst := d } = .next u ∧
      ∀ k < s.len.toNat, t.mem.read (s.src.toNat + k) = u.mem.read (d.toNat + k)

/-- R182: in an ECB command with disjoint regions, output block b depends only on input block b and the key: two runs
that agree on those leave the same block there. -/
def Obligations.EcbBlocksAreIndependent : Prop :=
  ∀ (i : Instr) (dir : Dir) (traced : Bool) (s₁ s₂ : State) (b : Nat),
    commandShape i = some (.ecb, dir, traced) →
    s₁.argsOk .ecb traced → s₁.inputsDefined .ecb → s₁.separate traced →
    s₂.argsOk .ecb traced → s₂.inputsDefined .ecb → s₂.separate traced →
    b < s₁.blocks → b < s₂.blocks →
    memRead s₁.mem s₁.kaddr.toNat 16 = memRead s₂.mem s₂.kaddr.toNat 16 →
    memRead s₁.mem (s₁.src.toNat + 16 * b) 16 = memRead s₂.mem (s₂.src.toNat + 16 * b) 16 →
    ∃ t₁ t₂, exec i s₁ = .next t₁ ∧ exec i s₂ = .next t₂ ∧
      memRead t₁.mem (s₁.dst.toNat + 16 * b) 16 = memRead t₂.mem (s₂.dst.toNat + 16 * b) 16

/-- R184: two commands with the same command word, the same argument values and the same bytes in every region they
read write the same bytes to DST and to the trace area and the same RKF, whatever overlap the regions have and whatever
else the two states hold. -/
def Obligations.CommandsAreDeterministic : Prop :=
  (∀ (i : Instr) (mode : Mode) (dir : Dir) (traced : Bool) (s₁ s₂ : State),
    commandShape i = some (mode, dir, traced) → s₁.sameRegisters s₂ →
    s₁.argsOk mode traced → s₂.argsOk mode traced → s₁.inputsDefined mode →
    (∀ k < 16, s₁.mem.read (s₁.kaddr.toNat + k) = s₂.mem.read (s₁.kaddr.toNat + k)) →
    (mode = .cbc → ∀ k < 16, s₁.mem.read (s₁.ivaddr.toNat + k) = s₂.mem.read (s₁.ivaddr.toNat + k)) →
    (∀ k < s₁.len.toNat, s₁.mem.read (s₁.src.toNat + k) = s₂.mem.read (s₁.src.toNat + k)) →
    ∃ t₁ t₂, exec i s₁ = .next t₁ ∧ exec i s₂ = .next t₂ ∧ t₁.rkf = t₂.rkf ∧ t₁.status = t₂.status ∧
      (∀ k < s₁.len.toNat, t₁.mem.read (s₁.dst.toNat + k) = t₂.mem.read (s₁.dst.toNat + k)) ∧
      (traced = true → ∀ k < 1536 * s₁.blocks,
        t₁.mem.read (s₁.taddr.toNat + k) = t₂.mem.read (s₁.taddr.toNat + k))) ∧
  ∀ s₁ s₂ : State, s₁.kaddr = s₂.kaddr → s₁.kaddr.toNat + 16 ≤ s₁.memBytes → s₂.kaddr.toNat + 16 ≤ s₂.memBytes →
    s₁.mem.definedOn s₁.kaddr.toNat 16 →
    (∀ k < 16, s₁.mem.read (s₁.kaddr.toNat + k) = s₂.mem.read (s₁.kaddr.toNat + k)) →
    ∃ t₁ t₂, exec .ksched s₁ = .next t₁ ∧ exec .ksched s₂ = .next t₂ ∧ t₁.rkf = t₂.rkf ∧ t₁.status = t₂.status

/-- R155, R176, R177 with V2: with the key apart from the data, ECB.ENC in place and then ECB.DEC in place restore every
byte of MEM. -/
def Obligations.EcbRoundTripRestoresMemory : Prop :=
  ∀ s : State, s.argsOk .ecb false → s.inputsDefined .ecb → s.dst = s.src →
    apart s.kaddr.toNat 16 s.src.toNat s.len.toNat →
    ∃ t u, exec .ecbEnc s = .next t ∧ exec .ecbDec t = .next u ∧ u.rkf = t.rkf ∧ u.status = 0x00000002#32 ∧
      ∀ a, u.mem.read a = s.mem.read a

/-- R178–R180 with V2: with key and IV apart from the data, CBC.ENC in place and then CBC.DEC in place restore every
byte of MEM. -/
def Obligations.CbcRoundTripRestoresMemory : Prop :=
  ∀ s : State, s.argsOk .cbc false → s.inputsDefined .cbc → s.dst = s.src →
    apart s.kaddr.toNat 16 s.src.toNat s.len.toNat → apart s.ivaddr.toNat 16 s.src.toNat s.len.toNat →
    ∃ t u, exec .cbcEnc s = .next t ∧ exec .cbcDec t = .next u ∧ u.rkf = t.rkf ∧ u.status = 0x00000002#32 ∧
      ∀ a, u.mem.read a = s.mem.read a

/-! ### The host port (10_state.md R24–R35, 43_block_modes.md R170, 70_reset_and_hazards.md R234) -/

/-- R170: a host write of CMD on an idle engine stores the word and sets STATUS to 0x00000001, whatever the word, and
changes nothing else of the engine; on a busy engine it is no issue but HOST_BUSY_ACCESS. -/
def Obligations.IssueSetsBusy : Prop :=
  (∀ (s : State) (w : Word) (rest : List HostEvent), s.idleHost (.writeReg 0x00#8 32 w) rest →
    ∃ t, step s = .next t ∧ t.cmd = w ∧ t.status = 0x00000001#32 ∧ t.src = s.src ∧ t.dst = s.dst ∧ t.len = s.len ∧
      t.kaddr = s.kaddr ∧ t.ivaddr = s.ivaddr ∧ t.taddr = s.taddr ∧ t.rkf = s.rkf ∧ t.mem = s.mem ∧
      t.mfault = none ∧ t.memTop = s.memTop ∧ t.host = rest ∧ t.replies = s.replies) ∧
  ∀ (s : State) (w : Word) (rest : List HostEvent), s.busyHost (.writeReg 0x00#8 32 w) rest →
    ∃ t, step s = .next t ∧ t.mfault = some .hostBusyAccess

/-- R27–R32, R236: a host write of an argument register of an idle engine takes effect at once and changes nothing
else. -/
def Obligations.ArgumentWritesTakeEffect : Prop :=
  ∀ (s : State) (off : BitVec 8) (v : Word) (rest : List HostEvent), s.idleHost (.writeReg off 32 v) rest →
    (off = 0x08#8 → step s = .next { s with src := v, host := rest }) ∧
    (off = 0x0C#8 → step s = .next { s with dst := v, host := rest }) ∧
    (off = 0x10#8 → step s = .next { s with len := v, host := rest }) ∧
    (off = 0x14#8 → step s = .next { s with kaddr := v, host := rest }) ∧
    (off = 0x18#8 → step s = .next { s with ivaddr := v, host := rest }) ∧
    (off = 0x1C#8 → step s = .next { s with taddr := v, host := rest })

/-- R34: at a reserved offset a host read returns 0x00000000 and a host write is ignored; a host write to STATUS or to
RK[i] is ignored. -/
def Obligations.ReservedAndReadOnlyOffsets : Prop :=
  (∀ (s : State) (off : BitVec 8) (rest : List HostEvent), s.idleHost (.readReg off 32) rest → off.toNat % 4 = 0 →
    (0x20 ≤ off.toNat ∧ off.toNat < 0x40 ∨ 0xC0 ≤ off.toNat) →
    step s = .next { s with host := rest, replies := s.replies ++ [.reg off 0x00000000#32] }) ∧
  ∀ (s : State) (off : BitVec 8) (v : Word) (rest : List HostEvent), s.idleHost (.writeReg off 32 v) rest →
    off.toNat % 4 = 0 → (0x20 ≤ off.toNat ∨ off.toNat = 0x04) →
    step s = .next { s with host := rest }

/-- R24, R70: a host read of a register of an idle engine returns its value and has no side effect. -/
def Obligations.RegisterReadsHaveNoSideEffect : Prop :=
  ∀ (s : State) (off : BitVec 8) (rest : List HostEvent), s.idleHost (.readReg off 32) rest →
    ∀ v : Word, (off = 0x00#8 ∧ v = s.cmd ∨ off = 0x04#8 ∧ v = s.status ∨ off = 0x08#8 ∧ v = s.src ∨
      off = 0x0C#8 ∧ v = s.dst ∨ off = 0x10#8 ∧ v = s.len ∨ off = 0x14#8 ∧ v = s.kaddr ∨ off = 0x18#8 ∧ v = s.ivaddr ∨
      off = 0x1C#8 ∧ v = s.taddr ∨ ∃ i : Fin 32, off.toNat = 0x40 + 4 * i.val ∧ v = s.rkf[i.val]) →
    step s = .next { s with host := rest, replies := s.replies ++ [.reg off v] }

/-- R35: a host register access of an idle engine of another width than 32 bits, or at an offset that is no multiple of
4, records HOST_BAD_ACCESS. -/
def Obligations.MalformedAccessIsRecorded : Prop :=
  ∀ (s : State) (off : BitVec 8) (bits : Nat) (v : Word) (rest : List HostEvent) (e : HostEvent),
    (e = .writeReg off bits v ∨ e = .readReg off bits) → s.idleHost e rest →
    (bits ≠ 32 ∨ off.toNat % 4 ≠ 0) → ∃ t, step s = .next t ∧ t.mfault = some .hostBadAccess

/-- R234: while STATUS.BUSY = 1 the host may only read STATUS; any other well-formed register access, and any access to
a byte of MEM, records HOST_BUSY_ACCESS, a read of an undefined byte too. An access that is malformed or out of range
besides records HOST_BAD_ACCESS. Where R207 gives an access two reasons (undefined, malformed or out of range besides),
which one is recorded is the model's choice (log 5). -/
def Obligations.BusyEngineAllowsOnlyStatusReads : Prop :=
  ∀ (s : State) (e : HostEvent) (rest : List HostEvent), s.busyHost e rest →
    (e = .readReg 0x04#8 32 → step s = .next
      { s with host := rest, turns := s.turns - 1, replies := s.replies ++ [.reg 0x04#8 s.status] }) ∧
    ((∃ off v, e = .writeReg off 32 v ∧ off.toNat % 4 = 0) ∨
      (∃ off, e = .readReg off 32 ∧ off.toNat % 4 = 0 ∧ off ≠ 0x04#8) ∨
      (∃ a v, e = .writeByte a v ∧ a < s.memBytes) ∨ (∃ a, e = .readByte a ∧ a < s.memBytes) →
      ∃ t, step s = .next t ∧ t.mfault = some .hostBusyAccess) ∧
    ((∃ off bits v, (e = .writeReg off bits v ∨ e = .readReg off bits) ∧ (bits ≠ 32 ∨ off.toNat % 4 ≠ 0)) ∨
      (∃ a v, (e = .writeByte a v ∨ e = .readByte a) ∧ s.memBytes ≤ a) →
      ∃ t, step s = .next t ∧ t.mfault = some .hostBadAccess)

/-- R37, R65, R207: a host byte write of an idle engine at an address below MEM_BYTES defines that byte and changes no
other; a byte read returns what the byte holds; an undefined byte is UNDEFINED_READ; an address ≥ MEM_BYTES is
HOST_BAD_ACCESS. -/
def Obligations.HostMemoryPort : Prop :=
  (∀ (s : State) (a : Nat) (v : Byte) (rest : List HostEvent), s.idleHost (.writeByte a v) rest →
    (a < s.memBytes → ∃ m : Memory, step s = .next { s with host := rest, mem := m } ∧ m.read a = some v ∧
      ∀ b, b ≠ a → m.read b = s.mem.read b) ∧
    (s.memBytes ≤ a → ∃ t, step s = .next t ∧ t.mfault = some .hostBadAccess)) ∧
  ∀ (s : State) (a : Nat) (rest : List HostEvent), s.idleHost (.readByte a) rest →
    (∀ v, a < s.memBytes → s.mem.read a = some v →
      step s = .next { s with host := rest, replies := s.replies ++ [.byte a v] }) ∧
    (a < s.memBytes → s.mem.read a = none → ∃ t, step s = .next t ∧ t.mfault = some .undefinedRead) ∧
    (s.memBytes ≤ a → ∃ t, step s = .next t ∧ t.mfault = some .hostBadAccess)

/-- R90: POLL reads STATUS and goes round again while BUSY was 1. -/
def Obligations.PollRepeatsWhileBusy : Prop :=
  (∀ (s : State) (rest : List HostEvent), s.busyHost .poll rest → step s = .next
    { s with turns := s.turns - 1, replies := s.replies ++ [.reg 0x04#8 s.status] }) ∧
  ∀ (s : State) (rest : List HostEvent), s.idleHost .poll rest → step s = .next
    { s with host := rest, replies := s.replies ++ [.reg 0x04#8 s.status] }

/-- R90: SETUP, six register writes, sets the six argument registers of an idle engine and nothing else. -/
def Obligations.SetupWritesSixRegisters : Prop :=
  ∀ (s : State) (src dst len kaddr ivaddr taddr : Word) (rest : List HostEvent), s.mfault = none → s.busy = false →
    s.host = (AsmLine.setup src dst len kaddr ivaddr taddr).expand ++ rest →
    Host.Core.run core 6 s = .next
      { s with src := src, dst := dst, len := len, kaddr := kaddr, ivaddr := ivaddr, taddr := taddr, host := rest }

/-! ### Reset, model faults and rules of the whole machine -/

/-- R39: the reset values of all architectural state, whatever the size of MEM. -/
def Obligations.ResetValues : Prop :=
  ∀ top : Word,
    let r := State.resetOf top
    (r.cmd = 0x00000000#32 ∧ r.status = 0x00000000#32 ∧ r.src = 0x00000000#32 ∧ r.dst = 0x00000000#32 ∧
      r.len = 0x00000000#32 ∧ r.kaddr = 0x00000000#32 ∧ r.ivaddr = 0x00000000#32 ∧ r.taddr = 0x00000000#32) ∧
    (∀ i : Fin 32, r.rkf[i.val] = 0x00000000#32) ∧ (∀ a, r.mem.read a = none) ∧ r.mfault = none ∧ r.busy = false ∧
    State.reset = State.resetOf Config.memTop

/-- R230: the platform's reset puts every piece of the engine's state into its reset value, whatever the engine was
doing, a recorded model fault included (log 6). -/
def Obligations.PlatformResetRestoresResetState : Prop :=
  ∀ (s : State) (rest : List HostEvent), s.host = .reset :: rest →
    (s.mfault ≠ none ∨ s.busy = false ∨ s.turns ≠ 0) →
    step s = .next { State.resetOf s.memTop with host := rest, replies := s.replies, issued := s.issued }

/-- R38, R207: from a state with a recorded model fault no step goes on, unless the platform resets the engine next;
every step that stops does so for a recorded model fault; and no step is refused (the stop is the model's, log 1). -/
def Obligations.OnlyRecordedFaultsStop : Prop :=
  (∀ (s : State) (r : Fault), s.mfault = some r → (∀ rest, s.host ≠ .reset :: rest) → step s = .fault r) ∧
  (∀ (s : State) (r : Fault), step s = .fault r → s.mfault = some r) ∧
  ∀ (s : State) (r : Refusal), step s ≠ .refused r

/-- R217: with nothing pending and nothing for the host to do, the engine holds its state. -/
def Obligations.IdleEngineHoldsState : Prop :=
  ∀ s : State, s.finished → step s = .next s

/-- R22, R25, R27–R32: the engine's step changes neither CMD nor an argument register, and no step changes the size of
MEM. -/
def Obligations.EngineNeverWritesArguments : Prop :=
  (∀ s t : State, s.engineTurn → step s = .next t → s.sameRegisters t ∧ s.sameSurroundings t) ∧
  ∀ s t : State, step s = .next t → t.memTop = s.memTop ∧ t.memBytes = s.memBytes

/-- R33, R237: RKF changes only in a completion without error, which writes all 32 entries from one key, or in a reset.
-/
def Obligations.RkfChangesOnlyOnSuccess : Prop :=
  ∀ s t : State, step s = .next t → t.rkf ≠ s.rkf →
    (s.engineTurn ∧ t.status = 0x00000002#32 ∧ ∃ key : Quad, t.rkf = keyExpand key) ∨
      ∃ rest, s.host = .reset :: rest ∧ t.rkf = Vector.replicate 32 0x00000000#32

/-- R171: every pending command completes: with the host only polling, after at most one step more than the turns the
interleaving gives it, BUSY is 0 or a model fault is recorded. -/
def Obligations.PendingCommandCompletes : Prop :=
  ∀ s : State, s.mfault = none → s.busy = true → (∀ e ∈ s.host, e = .poll) →
    ∃ k t, k ≤ s.turns + 1 ∧ Host.Core.run core k s = .next t ∧ (t.busy = false ∨ t.mfault ≠ none)

/-- R215: a step of one engine instance leaves every other instance as it is. -/
def Obligations.InstancesAreIndependent : Prop :=
  ∀ (p q : List State) (k : Nat), platformStep p k = some q →
    q.length = p.length ∧ (∀ j, j ≠ k → q[j]? = p[j]?) ∧
      ∃ s t, p[k]? = some s ∧ q[k]? = some t ∧ step s = .next t

/-! ### Invariants -/

/-- The invariants hold at reset, whatever the size of MEM. -/
def Obligations.InvariantsHoldAtReset : Prop :=
  (∀ top : Word, (State.resetOf top).memLegal ∧ (State.resetOf top).statusLegal ∧ (State.resetOf top).rkfLegal) ∧
    State.reset.memLegal ∧ State.reset.statusLegal ∧ State.reset.rkfLegal

/-- Every step keeps MEM canonical and within 0 .. MEM_BYTES−1 (R37, R66). -/
def Obligations.StepKeepsMemoryLegal : Prop :=
  ∀ s t : State, s.memLegal → step s = .next t → t.memLegal

/-- Every step keeps STATUS one of the six values of R26, so that the reserved error codes 4–15 are never produced and
the reserved bits read 0. -/
def Obligations.StepKeepsStatusLegal : Prop :=
  ∀ s t : State, s.statusLegal → step s = .next t → t.statusLegal

/-- Every step keeps RKF the reset value or the 32 round keys of one key (R33). -/
def Obligations.StepKeepsRoundKeysLegal : Prop :=
  ∀ s t : State, s.rkfLegal → step s = .next t → t.rkfLegal

/-- In every state a host program brings the machine to, the invariants hold, and BUSY, DONE and ERR are as R26 says:
never two of BUSY and DONE, ERR only with DONE, a code exactly with ERR. -/
def Obligations.ReachableStatusFieldsAgree : Prop :=
  ∀ s : State, Reachable s → s.memLegal ∧ s.statusLegal ∧ s.rkfLegal ∧
    ¬ (s.busy = true ∧ s.done = true) ∧ (s.err = true → s.done = true) ∧ (s.err = true ↔ s.errCode ≠ 0#4)
end

