-- ==== Sys2Proof/Laws/Memory.lean ====
section
/-! SUPPORT. The laws of MEM (20_memory.md R74, 10_state.md R37): read after write, frames, definedness, and the
canonical form kept by every memory operation. -/

namespace Sys2Proof.Machine

/-- What a byte reads after a write. -/
theorem Memory.read_write (m : Memory) (a b : Nat) (v : Byte) :
    (m.write a v).read b = if b = a then some v else m.read b := by
  induction m with
  | nil =>
    by_cases h : b = a
    · simp [Memory.write, Memory.read, h]
    · simp [Memory.write, Memory.read, h, Ne.symm h]
  | cons c m ih =>
    obtain ⟨k, w⟩ := c
    simp only [Memory.write]
    split
    · simp only [Memory.read]
      by_cases h : b = a
      · simp [h]
      · simp [h, Ne.symm h]
    · split
      · rename_i h1 h2
        subst h2
        simp only [Memory.read]
        by_cases h : b = a
        · simp [h]
        · simp [h, Ne.symm h]
      · rename_i h1 h2
        simp only [Memory.read, ih]
        by_cases h : k = b
        · subst h
          simp [Ne.symm h2]
        · simp [h]

@[simp] theorem Memory.read_write_same (m : Memory) (a : Nat) (v : Byte) : (m.write a v).read a = some v := by
  simp [Memory.read_write]

theorem Memory.read_write_of_ne (m : Memory) {a b : Nat} (v : Byte) (h : b ≠ a) :
    (m.write a v).read b = m.read b := by simp [Memory.read_write, h]

/-- A write lists the written address and else only what was listed. -/
theorem Memory.mem_write {m : Memory} {a : Nat} {v : Byte} {c : Host.Cell} (h : c ∈ m.write a v) :
    c.1 = a ∨ c ∈ m := by
  induction m with
  | nil => simp_all [Memory.write]
  | cons d m ih =>
    obtain ⟨k, w⟩ := d
    simp only [Memory.write] at h
    split at h
    · rcases List.mem_cons.1 h with h | h
      · exact .inl (by rw [h])
      · exact .inr h
    · split at h
      · rcases List.mem_cons.1 h with h | h
        · exact .inl (by rw [h])
        · exact .inr (List.mem_cons_of_mem _ h)
      · rcases List.mem_cons.1 h with h | h
        · exact .inr (h ▸ List.mem_cons_self)
        · exact (ih h).imp_right (List.mem_cons_of_mem _)

/-- A write keeps the canonical form. -/
theorem Memory.write_wf {m : Memory} (a : Nat) (v : Byte) (h : m.wf) : (m.write a v).wf := by
  induction m with
  | nil => simp [Memory.write, Memory.wf]
  | cons d m ih =>
    obtain ⟨k, w⟩ := d
    have hc := List.pairwise_cons.1 h
    simp only [Memory.write]
    split
    · rename_i hlt
      refine List.pairwise_cons.2 ⟨fun c hcm => ?_, h⟩
      rcases List.mem_cons.1 hcm with hcm | hcm
      · rw [hcm]; exact hlt
      · exact Nat.lt_trans hlt (hc.1 c hcm)
    · split
      · rename_i hlt heq
        subst heq
        exact List.pairwise_cons.2 ⟨hc.1, hc.2⟩
      · rename_i hlt hne
        refine List.pairwise_cons.2 ⟨fun c hcm => ?_, ih hc.2⟩
        rcases Memory.mem_write hcm with hcm | hcm
        · show k < c.1
          omega
        · exact hc.1 c hcm

/-- In a canonical memory the head entry is what its address reads. -/
theorem Memory.read_of_mem {m : Memory} (h : m.wf) {c : Host.Cell} (hc : c ∈ m) : m.read c.1 = some c.2 := by
  induction m with
  | nil => simp at hc
  | cons d m ih =>
    obtain ⟨k, w⟩ := d
    have hd := List.pairwise_cons.1 h
    rcases List.mem_cons.1 hc with hc | hc
    · subst hc
      simp [Memory.read]
    · have hk : k ≠ c.1 := Nat.ne_of_lt (hd.1 c hc)
      simp only [Memory.read]
      rw [if_neg hk]
      exact ih hd.2 hc

/-- `memRead` of one more byte. -/
theorem memRead_succ (m : Memory) (a n : Nat) :
    memRead m a (n + 1) = (m.read a).bind fun v => (memRead m (a + 1) n).map (v :: ·) := by
  simp only [memRead]
  cases m.read a with
  | none => rfl
  | some v => cases memRead m (a + 1) n <;> rfl

/-- A read returns as many bytes as it was asked for. -/
theorem memRead_length {m : Memory} {a n : Nat} {bs : List Byte} (h : memRead m a n = some bs) : bs.length = n := by
  induction n generalizing a bs with
  | zero => simp_all [memRead]
  | succ n ih =>
    rw [memRead_succ] at h
    obtain ⟨v, _, h⟩ := Option.bind_eq_some_iff.1 h
    obtain ⟨vs, hvs, rfl⟩ := Option.map_eq_some_iff.1 h
    simp [ih hvs]

/-- Everything `memRead` can do: it returns the bytes of the region, each of them defined, or the region has an
undefined byte. -/
theorem memRead_eq_some_iff {m : Memory} {a n : Nat} {bs : List Byte} :
    memRead m a n = some bs ↔ bs.length = n ∧ ∀ k (h : k < bs.length), m.read (a + k) = some bs[k] := by
  induction n generalizing a bs with
  | zero =>
    constructor
    · intro h
      simp only [memRead, Option.some.injEq] at h
      subst h
      simp
    · rintro ⟨h, _⟩
      simp [memRead, List.length_eq_zero_iff.1 h]
  | succ n ih =>
    rw [memRead_succ]
    constructor
    · intro h
      obtain ⟨v, hv, h⟩ := Option.bind_eq_some_iff.1 h
      obtain ⟨vs, hvs, rfl⟩ := Option.map_eq_some_iff.1 h
      obtain ⟨hl, hr⟩ := ih.1 hvs
      refine ⟨by simp [hl], fun k hk => ?_⟩
      cases k with
      | zero => simpa using hv
      | succ k =>
        have := hr k (by simpa using hk)
        rw [show a + (k + 1) = a + 1 + k by omega]
        simpa using this
    · rintro ⟨hl, hr⟩
      cases bs with
      | nil => simp at hl
      | cons v vs =>
        have h0 := hr 0 (by simp)
        refine Option.bind_eq_some_iff.2 ⟨v, by simpa using h0, Option.map_eq_some_iff.2 ⟨vs, ?_, rfl⟩⟩
        refine ih.2 ⟨by simpa using hl, fun k hk => ?_⟩
        have := hr (k + 1) (by simpa using hk)
        rw [show a + 1 + k = a + (k + 1) by omega]
        simpa using this

/-- A region is readable exactly when every byte of it is defined. -/
theorem memRead_isSome_iff {m : Memory} {a n : Nat} : (memRead m a n).isSome = true ↔ m.definedOn a n := by
  induction n generalizing a with
  | zero => simp [memRead, Memory.definedOn]
  | succ n ih =>
    rw [memRead_succ]
    constructor
    · intro h k hk
      obtain ⟨bs, h⟩ := Option.isSome_iff_exists.1 h
      obtain ⟨v, hv, h⟩ := Option.bind_eq_some_iff.1 h
      obtain ⟨vs, hvs, _⟩ := Option.map_eq_some_iff.1 h
      cases k with
      | zero => simp [hv]
      | succ k =>
        have := (ih (a := a + 1)).1 (by simp [hvs]) k (by omega)
        rwa [show a + (k + 1) = a + 1 + k by omega]
    · intro h
      obtain ⟨v, hv⟩ := Option.isSome_iff_exists.1 (h 0 (by omega))
      have h1 : m.definedOn (a + 1) n := fun k hk => by
        rw [show a + 1 + k = a + (k + 1) by omega]
        exact h (k + 1) (by omega)
      obtain ⟨vs, hvs⟩ := Option.isSome_iff_exists.1 (ih.2 h1)
      have hv : m.read a = some v := hv
      simp [hv, hvs]

/-- Two memories that agree on a region read the same there. -/
theorem memRead_congr {m₁ m₂ : Memory} {a n : Nat} (h : ∀ k < n, m₁.read (a + k) = m₂.read (a + k)) :
    memRead m₁ a n = memRead m₂ a n := by
  induction n generalizing a with
  | zero => rfl
  | succ n ih =>
    rw [memRead_succ, memRead_succ]
    have h0 : m₁.read a = m₂.read a := h 0 (by omega)
    rw [h0, ih fun k hk => by
      rw [show a + 1 + k = a + (k + 1) by omega]
      exact h (k + 1) (by omega)]

/-- A write of bytes leaves every other address alone. -/
theorem memWrite_read_outside {m : Memory} {a b : Nat} {bs : List Byte} (h : b < a ∨ a + bs.length ≤ b) :
    (memWrite m a bs).read b = m.read b := by
  induction bs generalizing m a with
  | nil => rfl
  | cons v vs ih =>
    simp only [List.length_cons] at h
    simp only [memWrite]
    rw [ih (by omega), Memory.read_write_of_ne _ _ (by omega)]

/-- A write of bytes puts each at its address. -/
theorem memWrite_read_inside {m : Memory} {a k : Nat} {bs : List Byte} (h : k < bs.length) :
    (memWrite m a bs).read (a + k) = some bs[k] := by
  induction bs generalizing m a k with
  | nil => simp at h
  | cons v vs ih =>
    simp only [memWrite]
    cases k with
    | zero =>
      rw [memWrite_read_outside (by omega)]
      simp
    | succ k =>
      rw [show a + (k + 1) = a + 1 + k by omega, ih (by simpa using h)]
      simp

/-- Reading back what was written. -/
theorem memRead_memWrite_same (m : Memory) (a : Nat) (bs : List Byte) :
    memRead (memWrite m a bs) a bs.length = some bs :=
  memRead_eq_some_iff.2 ⟨rfl, fun _ h => memWrite_read_inside h⟩

/-- Reading a region a write does not touch. -/
theorem memRead_memWrite_apart {m : Memory} {a b n : Nat} {bs : List Byte} (h : b + n ≤ a ∨ a + bs.length ≤ b) :
    memRead (memWrite m a bs) b n = memRead m b n :=
  memRead_congr fun k hk => memWrite_read_outside (by omega)

/-- A write of bytes undefines nothing. -/
theorem memWrite_read_isSome {m : Memory} {a b : Nat} {bs : List Byte} (h : (m.read b).isSome = true) :
    ((memWrite m a bs).read b).isSome = true := by
  by_cases hb : b < a ∨ a + bs.length ≤ b
  · rw [memWrite_read_outside hb]
    exact h
  · obtain ⟨k, rfl⟩ : ∃ k, b = a + k := ⟨b - a, by omega⟩
    rw [memWrite_read_inside (by omega)]
    rfl

/-- Which bytes are defined after a write: those that were, and those written (20_memory.md R74). -/
theorem memWrite_read_isSome_iff {m : Memory} {a b : Nat} {bs : List Byte} :
    ((memWrite m a bs).read b).isSome = true ↔ (m.read b).isSome = true ∨ a ≤ b ∧ b < a + bs.length := by
  by_cases h : a ≤ b ∧ b < a + bs.length
  · have hin : b - a < bs.length := by omega
    have hr := memWrite_read_inside (m := m) (a := a) hin
    rw [show a + (b - a) = b by omega] at hr
    simp [hr, h]
  · rw [memWrite_read_outside (by omega)]
    simp [h]

/-- A write of bytes keeps the canonical form. -/
theorem memWrite_wf {m : Memory} (a : Nat) (bs : List Byte) (h : m.wf) : (memWrite m a bs).wf := by
  induction bs generalizing m a with
  | nil => exact h
  | cons v vs ih => exact ih (a + 1) (Memory.write_wf a v h)

/-- A write of bytes below a bound lists no address above it. -/
theorem memWrite_below {m : Memory} {a n : Nat} {bs : List Byte} (hb : a + bs.length ≤ n) (h : ∀ c ∈ m, c.1 < n) :
    ∀ c ∈ memWrite m a bs, c.1 < n := by
  induction bs generalizing m a with
  | nil => exact h
  | cons v vs ih =>
    simp only [List.length_cons] at hb
    refine ih (m := m.write a v) (a := a + 1) (by omega) fun c hc => ?_
    rcases Memory.mem_write hc with hc | hc
    · omega
    · exact h c hc

end Sys2Proof.Machine
end

