-- ==== Sys2Proof/Laws/Codec.lean ====
section
/-! SUPPORT. The laws of the byte codec (40_byte_codec.md): packing and unpacking are inverse, loads and stores of
blocks. -/

namespace Sys2Proof.Machine

/-- Packing the bytes of a word gives the word (R101). -/
theorem be32_wordByte (w : Word) :
    be32 (wordByte w 0) (wordByte w 1) (wordByte w 2) (wordByte w 3) = w := by
  apply BitVec.eq_of_getLsbD_eq
  intro i hi
  simp only [be32, wordByte, BitVec.getLsbD_or, BitVec.getLsbD_shiftLeft, BitVec.getLsbD_setWidth,
    BitVec.getLsbD_extractLsb']
  interval_cases i <;> simp

/-- Each byte of a packed word is the byte put there (R100). -/
theorem wordByte_be32 (b0 b1 b2 b3 : Byte) :
    wordByte (be32 b0 b1 b2 b3) 0 = b0 ∧ wordByte (be32 b0 b1 b2 b3) 1 = b1 ∧
      wordByte (be32 b0 b1 b2 b3) 2 = b2 ∧ wordByte (be32 b0 b1 b2 b3) 3 = b3 := by
  refine ⟨?_, ?_, ?_, ?_⟩ <;>
  · apply BitVec.eq_of_getLsbD_eq
    intro i hi
    simp only [be32, wordByte, BitVec.getLsbD_or, BitVec.getLsbD_shiftLeft, BitVec.getLsbD_setWidth,
      BitVec.getLsbD_extractLsb']
    interval_cases i <;> simp

@[simp] theorem unbe32_length (w : Word) : (unbe32 w).length = 4 := rfl

@[simp] theorem wordsToBytes_length (ws : List Word) : (wordsToBytes ws).length = 4 * ws.length := by
  induction ws with
  | nil => rfl
  | cons w ws ih => simp only [wordsToBytes, List.length_append, unbe32_length, ih, List.length_cons]; omega

@[simp] theorem Quad.bytes_length (q : Quad) : q.bytes.length = 16 := by simp [Quad.bytes, Quad.words]

@[simp] theorem TraceRecord.bytes_length (r : TraceRecord) : r.bytes.length = 48 := by
  simp [TraceRecord.bytes, TraceRecord.words, Quad.words]

/-- Unpacking and packing a word sequence (R103). -/
theorem bytesToWords_wordsToBytes (ws : List Word) : bytesToWords (wordsToBytes ws) = some ws := by
  induction ws with
  | nil => rfl
  | cons w ws ih =>
    simp only [wordsToBytes, unbe32, List.cons_append, List.nil_append, bytesToWords, ih, be32_wordByte]

/-- The words of a block's bytes are the block. -/
@[simp] theorem Quad.ofBytes_bytes (q : Quad) : Quad.ofBytes q.bytes = some q := by
  simp [Quad.ofBytes, Quad.bytes, bytesToWords_wordsToBytes, Quad.words]

/-- Sixteen bytes always make a block (R102). -/
theorem Quad.ofBytes_isSome {bs : List Byte} (h : bs.length = 16) : (Quad.ofBytes bs).isSome = true := by
  match bs, h with
  | [a0, a1, a2, a3, b0, b1, b2, b3, c0, c1, c2, c3, d0, d1, d2, d3], _ => rfl

/-- The bytes of the block made of sixteen bytes are those bytes (R103). -/
theorem Quad.bytes_ofBytes {bs : List Byte} {q : Quad} (h : bs.length = 16) (hq : Quad.ofBytes bs = some q) :
    q.bytes = bs := by
  match bs, h with
  | [a0, a1, a2, a3, b0, b1, b2, b3, c0, c1, c2, c3, d0, d1, d2, d3], _ =>
    simp only [Quad.ofBytes, bytesToWords, Option.some.injEq] at hq
    subst hq
    simp only [Quad.bytes, Quad.words, wordsToBytes, unbe32, wordByte_be32, List.cons_append, List.nil_append]

/-- Everything `loadBlock` can do (R104): it gives the block whose bytes the region holds, or the region has an
undefined byte. -/
theorem loadBlock_eq_some_iff {m : Memory} {a : Nat} {q : Quad} :
    loadBlock m a = some q ↔ memRead m a 16 = some q.bytes := by
  unfold loadBlock
  cases h : memRead m a 16 with
  | none => simp
  | some bs =>
    have hl := memRead_length h
    constructor
    · intro hq
      rw [Quad.bytes_ofBytes hl hq]
    · intro hq
      rw [Option.some.inj hq]
      simp

/-- A block can be loaded exactly when its sixteen bytes are defined. -/
theorem loadBlock_isSome_iff {m : Memory} {a : Nat} : (loadBlock m a).isSome = true ↔ m.definedOn a 16 := by
  rw [← memRead_isSome_iff]
  unfold loadBlock
  cases h : memRead m a 16 with
  | none => simp
  | some bs => simp [Quad.ofBytes_isSome (memRead_length h)]

/-- A load depends on its sixteen bytes only. -/
theorem loadBlock_congr {m₁ m₂ : Memory} {a : Nat} (h : ∀ k < 16, m₁.read (a + k) = m₂.read (a + k)) :
    loadBlock m₁ a = loadBlock m₂ a := by
  unfold loadBlock
  rw [memRead_congr h]

/-- A stored block loads back. -/
@[simp] theorem loadBlock_storeBlock_same (m : Memory) (a : Nat) (q : Quad) :
    loadBlock (storeBlock m a q) a = some q := by
  rw [loadBlock_eq_some_iff]
  have := memRead_memWrite_same m a q.bytes
  rwa [Quad.bytes_length] at this

/-- A store of a block leaves every other address alone. -/
theorem storeBlock_read_outside {m : Memory} {a b : Nat} {q : Quad} (h : b < a ∨ a + 16 ≤ b) :
    (storeBlock m a q).read b = m.read b := memWrite_read_outside (by simpa using h)

/-- Exclusive-or is its own inverse. -/
@[simp] theorem Quad.xor_xor_cancel (a b : Quad) : (a.xor b).xor b = a := by
  simp [Quad.xor]

/-- Exclusive-or with the zero block is the block. -/
@[simp] theorem Quad.xor_zero (a : Quad) : a.xor ⟨0#32, 0#32, 0#32, 0#32⟩ = a := by
  simp [Quad.xor]

@[simp] theorem Quad.reverse_reverse (q : Quad) : q.reverse.reverse = q := rfl

/-- The byte of an exclusive-or (R106). -/
theorem wordByte_xor (x y : Word) (k : Nat) : wordByte (x ^^^ y) k = wordByte x k ^^^ wordByte y k := by
  apply BitVec.eq_of_getLsbD_eq
  intro i hi
  simp [wordByte, hi]

end Sys2Proof.Machine
end

