-- ==== Sys2Proof/Laws/Rounds.lean ====
section
/-! SUPPORT. The laws of the key schedule and the round engine (41_key_schedule.md R128, 42_round_engine.md R152–R157):
how many keys and records there are, and what writing a trace changes. -/

namespace Sys2Proof.Machine

@[simp] theorem keyExpand_toList (key : Quad) : (keyExpand key).toList = keyRounds ckTable (keyStart key) := rfl

@[simp] theorem keySequence_length (dir : Dir) (rk : Vector Word 32) : (keySequence dir rk).length = 32 := by
  cases dir <;> simp [keySequence]

/-- The rounds of a longer key sequence run one after the other. -/
theorem cryptRounds_append (i : Nat) (x : Quad) (ks ls : List Word) :
    cryptRounds i x (ks ++ ls) =
      ((cryptRounds (i + ks.length) (cryptRounds i x ks).1 ls).1,
        (cryptRounds i x ks).2 ++ (cryptRounds (i + ks.length) (cryptRounds i x ks).1 ls).2) := by
  induction ks generalizing i x with
  | nil => simp [cryptRounds]
  | cons k ks ih =>
    simp only [List.cons_append, cryptRounds, ih, List.length_cons]
    rw [show i + 1 + ks.length = i + (ks.length + 1) by omega]

/-- The state the rounds end in does not depend on the number of the first round. -/
theorem cryptRounds_fst (i j : Nat) (x : Quad) (ks : List Word) : (cryptRounds i x ks).1 = (cryptRounds j x ks).1 := by
  induction ks generalizing i j x with
  | nil => rfl
  | cons k ks ih => exact ih (i + 1) (j + 1) _

/-- One record for each round (R153). -/
theorem cryptRounds_records_length (i : Nat) (x : Quad) (ks : List Word) :
    (cryptRounds i x ks).2.length = ks.length := by
  induction ks generalizing i x with
  | nil => rfl
  | cons k ks ih => simp [cryptRounds, ih]

@[simp] theorem crypt_records_length (b : Quad) (ks : List Word) : (crypt b ks).2.length = ks.length :=
  cryptRounds_records_length 0 b ks

/-- A trace write leaves every address outside its records alone (R157). -/
theorem writeTrace_read_outside {m : Memory} {a b : Nat} {rs : List TraceRecord}
    (h : b < a ∨ a + 48 * rs.length ≤ b) : (writeTrace m a rs).read b = m.read b := by
  induction rs generalizing m a with
  | nil => rfl
  | cons r rs ih =>
    simp only [List.length_cons] at h
    simp only [writeTrace, storeBytes]
    rw [ih (by omega)]
    exact memWrite_read_outside (by simp only [TraceRecord.bytes_length]; omega)

/-- A trace write puts record `i` 48·i bytes above the first (R157). -/
theorem writeTrace_read_record {m : Memory} {a i : Nat} {rs : List TraceRecord} (h : i < rs.length) :
    memRead (writeTrace m a rs) (a + 48 * i) 48 = some rs[i].bytes := by
  induction rs generalizing m a i with
  | nil => simp at h
  | cons r rs ih =>
    simp only [writeTrace]
    cases i with
    | zero =>
      rw [memRead_congr (m₂ := storeBytes m a r.bytes) fun k hk => writeTrace_read_outside (by omega)]
      have := memRead_memWrite_same m a r.bytes
      rwa [TraceRecord.bytes_length] at this
    | succ i =>
      rw [show a + 48 * (i + 1) = a + 48 + 48 * i by omega, ih (by simpa using h)]
      rfl

/-- A trace write undefines nothing. -/
theorem writeTrace_read_isSome {m : Memory} {a b : Nat} {rs : List TraceRecord} (h : (m.read b).isSome = true) :
    ((writeTrace m a rs).read b).isSome = true := by
  induction rs generalizing m a with
  | nil => exact h
  | cons r rs ih =>
    simp only [writeTrace, storeBytes]
    exact ih (m := memWrite m a r.bytes) (memWrite_read_isSome h)

/-- Which bytes are defined after a trace write: those that were, and those of its records (R157). -/
theorem writeTrace_read_isSome_iff {m : Memory} {a b : Nat} {rs : List TraceRecord} :
    ((writeTrace m a rs).read b).isSome = true ↔ (m.read b).isSome = true ∨ a ≤ b ∧ b < a + 48 * rs.length := by
  induction rs generalizing m a with
  | nil => simp [writeTrace, show ¬ (a ≤ b ∧ b < a) by omega]
  | cons r rs ih =>
    simp only [writeTrace, storeBytes, ih, memWrite_read_isSome_iff, TraceRecord.bytes_length, List.length_cons, or_assoc]
    exact or_congr_right (by omega)

/-- A trace write keeps the canonical form. -/
theorem writeTrace_wf {m : Memory} (a : Nat) (rs : List TraceRecord) (h : m.wf) : (writeTrace m a rs).wf := by
  induction rs generalizing m a with
  | nil => exact h
  | cons r rs ih =>
    simp only [writeTrace, storeBytes]
    exact ih (m := memWrite m a r.bytes) (a + 48) (memWrite_wf a r.bytes h)

/-- A trace write below a bound lists no address above it. -/
theorem writeTrace_below {m : Memory} {a n : Nat} {rs : List TraceRecord} (hb : a + 48 * rs.length ≤ n)
    (h : ∀ c ∈ m, c.1 < n) : ∀ c ∈ writeTrace m a rs, c.1 < n := by
  induction rs generalizing m a with
  | nil => exact h
  | cons r rs ih =>
    simp only [List.length_cons] at hb
    simp only [writeTrace, storeBytes]
    exact ih (m := memWrite m a r.bytes) (a := a + 48) (by omega)
      (memWrite_below (by simp only [TraceRecord.bytes_length]; omega) h)

/-- The trace of a block as 32 separate writes of 48 bytes, in round order (42_round_engine.md R157). -/
theorem writeTrace_eq_foldl {rs : List TraceRecord} (h : rs.length = 32) (m : Memory) (a : Nat) :
    writeTrace m a rs =
      (List.range 32).foldl (fun m r => memWrite m (a + 48 * r) ((rs[r]?.map TraceRecord.bytes).getD [])) m := by
  have step : ∀ (rs : List TraceRecord) (i : Nat) (m : Memory), writeTrace m (a + 48 * i) rs =
      (List.range' i rs.length).foldl
        (fun m r => memWrite m (a + 48 * r) ((rs[r - i]?.map TraceRecord.bytes).getD [])) m := by
    intro rs
    induction rs with
    | nil => exact fun _ _ => rfl
    | cons r rs ih =>
      intro i m
      rw [List.length_cons, List.range'_succ, List.foldl_cons]
      simp only [writeTrace, Nat.sub_self, List.getElem?_cons_zero, Option.map_some, Option.getD_some, storeBytes]
      rw [show a + 48 * i + 48 = a + 48 * (i + 1) by omega, ih]
      refine List.foldl_ext _ _ _ fun m k hk => ?_
      have : i + 1 ≤ k := by simp only [List.mem_range', Nat.one_mul] at hk; omega
      rw [show k - i = k - (i + 1) + 1 by omega, List.getElem?_cons_succ]
  simpa only [Nat.mul_zero, Nat.add_zero, Nat.sub_zero, h, ← List.range_eq_range'] using step rs 0 m

end Sys2Proof.Machine
end

