-- ==== Sys2Proof/Laws/Blocks.lean ====
section
/-! SUPPORT. The laws of the block loop (43_block_modes.md R174–R181): when it runs to its end, what it leaves alone,
and, for regions that are apart or in place, what each output block and each trace record is. -/

namespace Sys2Proof.Machine

/-- The writes of one block undefine nothing. -/
theorem blockWrites_read_isSome {j : BlockJob} {b a : Nat} {cv x : Quad} {m : Memory}
    (h : (m.read a).isSome = true) : ((blockWrites j b cv x m).read a).isSome = true := by
  simp only [blockWrites, storeBlock, storeBytes]
  apply memWrite_read_isSome
  split
  · exact writeTrace_read_isSome h
  · exact h

/-- The addresses block `b` writes: its output block, and its trace records if the command is traced (R174). -/
abbrev BlockJob.Writes (j : BlockJob) (b a : Nat) : Prop :=
  (j.dst + 16 * b ≤ a ∧ a < j.dst + 16 * b + 16) ∨
    (j.traced = true ∧ j.taddr + 1536 * b ≤ a ∧ a < j.taddr + 1536 * b + 1536)

/-- Which bytes are defined after one block's writes: those that were, and those it writes. -/
theorem blockWrites_read_isSome_iff {j : BlockJob} {b a : Nat} {cv x : Quad} {m : Memory} (hk : j.rks.length = 32) :
    ((blockWrites j b cv x m).read a).isSome = true ↔ (m.read a).isSome = true ∨ j.Writes b a := by
  simp only [blockWrites, storeBlock, storeBytes, memWrite_read_isSome_iff, Quad.bytes_length]
  cases ht : j.traced
  · simp [BlockJob.Writes, ht]
  · simp only [if_true, writeTrace_read_isSome_iff, crypt_records_length, hk, traceBytes, BlockJob.Writes, ht, true_and,
      or_assoc]
    exact or_congr_right or_comm

/-- The writes of one block keep the canonical form. -/
theorem blockWrites_wf {j : BlockJob} (b : Nat) (cv x : Quad) {m : Memory} (h : m.wf) :
    (blockWrites j b cv x m).wf := by
  simp only [blockWrites, storeBlock, storeBytes]
  apply memWrite_wf
  split
  · exact writeTrace_wf _ _ h
  · exact h

/-- The writes of one block leave alone every address outside its output block and its trace records (R174). -/
theorem blockWrites_read_outside {j : BlockJob} {b a : Nat} {cv x : Quad} {m : Memory} (hk : j.rks.length = 32)
    (hd : a < j.dst + 16 * b ∨ j.dst + 16 * b + 16 ≤ a)
    (ht : j.traced = true → a < j.taddr + 1536 * b ∨ j.taddr + 1536 * (b + 1) ≤ a) :
    (blockWrites j b cv x m).read a = m.read a := by
  simp only [blockWrites]
  rw [storeBlock_read_outside hd]
  split
  · rename_i h
    have := ht h
    exact writeTrace_read_outside (by simp only [crypt_records_length, hk, traceBytes]; lia)
  · rfl

/-- The writes of one block below a bound list no address above it. -/
theorem blockWrites_below {j : BlockJob} {b n : Nat} {cv x : Quad} {m : Memory} (hk : j.rks.length = 32)
    (hd : j.dst + 16 * b + 16 ≤ n) (ht : j.traced = true → j.taddr + 1536 * (b + 1) ≤ n)
    (h : ∀ c ∈ m, c.1 < n) : ∀ c ∈ blockWrites j b cv x m, c.1 < n := by
  simp only [blockWrites, storeBlock, storeBytes]
  refine memWrite_below (by simpa using hd) ?_
  split
  · rename_i hj
    have := ht hj
    exact writeTrace_below (by simp only [crypt_records_length, hk, traceBytes]; lia) h
  · exact h

/-- The output block of one block's writes (R174 (3c): written last). -/
theorem blockWrites_output (j : BlockJob) (b : Nat) (cv x : Quad) (m : Memory) :
    loadBlock (blockWrites j b cv x m) (j.dst + 16 * b) =
      some (chainOutput j.mode j.dir cv (crypt (chainInput j.mode j.dir cv x) j.rks).1) := by
  simp only [blockWrites]
  exact loadBlock_storeBlock_same _ _ _

/-- A trace record of one block's writes, where the output block lies apart from the trace. -/
theorem blockWrites_record {j : BlockJob} {b i : Nat} {cv x : Quad} {m : Memory} (hk : j.rks.length = 32)
    (ht : j.traced = true) (hi : i < (crypt (chainInput j.mode j.dir cv x) j.rks).2.length)
    (ha : j.taddr + 1536 * (b + 1) ≤ j.dst + 16 * b ∨ j.dst + 16 * b + 16 ≤ j.taddr + 1536 * b) :
    memRead (blockWrites j b cv x m) (j.taddr + 1536 * b + 48 * i) 48 =
      some ((crypt (chainInput j.mode j.dir cv x) j.rks).2[i].bytes) := by
  have h32 : i < 32 := by simpa [hk] using hi
  simp only [blockWrites, ht, if_true]
  rw [memRead_congr fun k hk' => storeBlock_read_outside (by lia)]
  exact writeTrace_read_record hi

/-- The chain value before the k-th block, for inputs `x 0`, `x 1`, … -/
def chainAt (j : BlockJob) (cv : Quad) (x : Nat → Quad) : Nat → Quad
  | 0 => cv
  | k + 1 => blockChain j (chainAt j cv x k) (x k)

theorem chainAt_shift (j : BlockJob) (cv : Quad) (x : Nat → Quad) (k : Nat) :
    chainAt j (blockChain j cv (x 0)) (fun i => x (i + 1)) k = chainAt j cv x (k + 1) := by
  induction k with
  | zero => rfl
  | succ k ih => simp only [chainAt] at ih ⊢; rw [ih]

/-- One more block. -/
theorem runBlocks_succ {j : BlockJob} {n b : Nat} {cv x : Quad} {m : Memory}
    (hx : loadBlock m (j.src + 16 * b) = some x) :
    runBlocks j (n + 1) b cv m = runBlocks j n (b + 1) (blockChain j cv x) (blockWrites j b cv x m) := by
  simp only [runBlocks, hx]

/-- The loop runs to its end when every input byte is defined, whatever the regions' overlap (R75). -/
theorem runBlocks_isSome {j : BlockJob} {n b : Nat} {cv : Quad} {m : Memory}
    (h : m.definedOn (j.src + 16 * b) (16 * n)) : (runBlocks j n b cv m).isSome = true := by
  induction n generalizing b cv m with
  | zero => rfl
  | succ n ih =>
    obtain ⟨x, hx⟩ := Option.isSome_iff_exists.1
      (loadBlock_isSome_iff.2 fun k hk => h k (by lia) : (loadBlock m (j.src + 16 * b)).isSome = true)
    rw [runBlocks_succ hx]
    refine ih fun k hk => blockWrites_read_isSome ?_
    rw [show j.src + 16 * (b + 1) + k = j.src + 16 * b + (16 + k) by lia]
    exact h (16 + k) (by lia)

/-- The loop runs to its end exactly when every input byte is defined when its block is read: it was defined before, or
an earlier block of the loop writes it (R74, R75, R174). -/
theorem runBlocks_isSome_iff {j : BlockJob} {n b : Nat} {cv : Quad} {m : Memory} (hk : j.rks.length = 32) :
    (runBlocks j n b cv m).isSome = true ↔ ∀ k < 16 * n,
      (m.read (j.src + 16 * b + k)).isSome = true ∨ ∃ c < k / 16, j.Writes (b + c) (j.src + 16 * b + k) := by
  induction n generalizing b cv m with
  | zero => simp [runBlocks]
  | succ n ih =>
    cases hx : loadBlock m (j.src + 16 * b) with
    | none =>
      have hu : ¬ m.definedOn (j.src + 16 * b) 16 := by simp [← loadBlock_isSome_iff, hx]
      simp only [runBlocks, hx, Option.isSome_none, Bool.false_eq_true, false_iff]
      refine fun h => hu fun k hk' => ?_
      rcases h k (by omega) with h | ⟨c, hc, _⟩
      · exact h
      · omega
    | some x =>
      have hd : m.definedOn (j.src + 16 * b) 16 := loadBlock_isSome_iff.1 (by rw [hx]; rfl)
      rw [runBlocks_succ hx, ih]
      have later : ∀ k, j.src + 16 * (b + 1) + k = j.src + 16 * b + (k + 16) := fun k => by omega
      simp only [blockWrites_read_isSome_iff hk, later]
      constructor
      · intro h k hk'
        by_cases h16 : k < 16
        · exact .inl (hd k h16)
        · have hl := h (k - 16) (by omega)
          rw [show k - 16 + 16 = k by omega] at hl
          rcases hl with (h | h) | ⟨c, hc, h⟩
          · exact .inl h
          · exact .inr ⟨0, by omega, h⟩
          · exact .inr ⟨c + 1, by omega, by rwa [show b + (c + 1) = b + 1 + c by omega]⟩
      · intro h k hk'
        rcases h (k + 16) (by omega) with h | ⟨c, hc, h⟩
        · exact .inl (.inl h)
        · cases c with
          | zero => exact .inl (.inr h)
          | succ c => exact .inr ⟨c, by omega, by rwa [show b + 1 + c = b + (c + 1) by omega]⟩

/-- The writes of one block, spelled out (R174). -/
theorem blockWrites_eq (j : BlockJob) (b : Nat) (cv x : Quad) (m : Memory) :
    blockWrites j b cv x m =
      storeBlock (if j.traced then writeTrace m (j.taddr + traceBytes b) (crypt (chainInput j.mode j.dir cv x) j.rks).2
        else m) (j.dst + 16 * b) (chainOutput j.mode j.dir cv (crypt (chainInput j.mode j.dir cv x) j.rks).1) := rfl

/-- What the loop passes through: the input blocks, the chain values and the memories before each block (R174, R75). -/
theorem runBlocks_trajectory {j : BlockJob} {n b : Nat} {cv : Quad} {m m' : Memory}
    (h : runBlocks j n b cv m = some m') :
    ∃ (x c : Nat → Quad) (ms : Nat → Memory), ms b = m ∧ ms (b + n) = m' ∧ c b = cv ∧
      ∀ k, b ≤ k → k < b + n → loadBlock (ms k) (j.src + 16 * k) = some (x k) ∧
        c (k + 1) = blockChain j (c k) (x k) ∧ ms (k + 1) = blockWrites j k (c k) (x k) (ms k) := by
  induction n generalizing b cv m with
  | zero =>
    simp only [runBlocks, Option.some.injEq] at h
    exact ⟨fun _ => cv, fun _ => cv, fun _ => m, rfl, h, rfl, by omega⟩
  | succ n ih =>
    cases hx : loadBlock m (j.src + 16 * b) with
    | none => simp [runBlocks, hx] at h
    | some x =>
      rw [runBlocks_succ hx] at h
      obtain ⟨x', c', ms', h1, h2, h3, h4⟩ := ih h
      refine ⟨fun k => if k = b then x else x' k, fun k => if k = b then cv else c' k,
        fun k => if k = b then m else ms' k, by simp, ?_, by simp, fun k hk1 hk2 => ?_⟩
      · simp only [show ¬ b + (n + 1) = b by omega, if_false]
        rw [← h2]
        congr 1
        omega
      · by_cases hkb : k = b
        · subst hkb
          simp [hx, h3, h1]
        · simp only [hkb, show ¬ k + 1 = b by omega, if_false]
          exact h4 k (by omega) (by omega)

/-- The loop leaves alone every address outside the output and trace regions of its blocks. -/
theorem runBlocks_read_outside {j : BlockJob} {n b a : Nat} {cv : Quad} {m m' : Memory} (hk : j.rks.length = 32)
    (h : runBlocks j n b cv m = some m') (hd : a < j.dst + 16 * b ∨ j.dst + 16 * (b + n) ≤ a)
    (ht : j.traced = true → a < j.taddr + 1536 * b ∨ j.taddr + 1536 * (b + n) ≤ a) : m'.read a = m.read a := by
  induction n generalizing b cv m with
  | zero =>
    simp only [runBlocks, Option.some.injEq] at h
    rw [h]
  | succ n ih =>
    cases hx : loadBlock m (j.src + 16 * b) with
    | none => simp [runBlocks, hx] at h
    | some x =>
      rw [runBlocks_succ hx] at h
      rw [ih h (by lia) fun hj => by have := ht hj; lia,
        blockWrites_read_outside hk (by lia) fun hj => by have := ht hj; lia]

/-- The loop keeps the canonical form. -/
theorem runBlocks_wf {j : BlockJob} {n b : Nat} {cv : Quad} {m m' : Memory} (h : runBlocks j n b cv m = some m')
    (hw : m.wf) : m'.wf := by
  induction n generalizing b cv m with
  | zero =>
    simp only [runBlocks, Option.some.injEq] at h
    exact h ▸ hw
  | succ n ih =>
    cases hx : loadBlock m (j.src + 16 * b) with
    | none => simp [runBlocks, hx] at h
    | some x =>
      rw [runBlocks_succ hx] at h
      exact ih h (blockWrites_wf b cv x hw)

/-- The loop over regions below a bound lists no address above it. -/
theorem runBlocks_below {j : BlockJob} {n b top : Nat} {cv : Quad} {m m' : Memory} (hk : j.rks.length = 32)
    (h : runBlocks j n b cv m = some m') (hd : j.dst + 16 * (b + n) ≤ top)
    (ht : j.traced = true → j.taddr + 1536 * (b + n) ≤ top) (hm : ∀ c ∈ m, c.1 < top) : ∀ c ∈ m', c.1 < top := by
  induction n generalizing b cv m with
  | zero =>
    simp only [runBlocks, Option.some.injEq] at h
    exact h ▸ hm
  | succ n ih =>
    cases hx : loadBlock m (j.src + 16 * b) with
    | none => simp [runBlocks, hx] at h
    | some x =>
      rw [runBlocks_succ hx] at h
      exact ih h (by lia) (fun hj => by have := ht hj; lia)
        (blockWrites_below hk (by lia) (fun hj => by have := ht hj; lia) hm)

/-- The regions of the blocks from `b` on allow each block to be computed from the original input: the output is in
place or apart from the input, and a trace is apart from both (R181, 70_reset_and_hazards.md R239). -/
structure BlockJob.Separate (j : BlockJob) (n b : Nat) : Prop where
  dst : j.dst = j.src ∨ j.dst + 16 * (b + n) ≤ j.src + 16 * b ∨ j.src + 16 * (b + n) ≤ j.dst + 16 * b
  traceSrc : j.traced = true →
    j.taddr + 1536 * (b + n) ≤ j.src + 16 * b ∨ j.src + 16 * (b + n) ≤ j.taddr + 1536 * b
  traceDst : j.traced = true →
    j.taddr + 1536 * (b + n) ≤ j.dst + 16 * b ∨ j.dst + 16 * (b + n) ≤ j.taddr + 1536 * b

theorem BlockJob.Separate.tail {j : BlockJob} {n b : Nat} (h : j.Separate (n + 1) b) : j.Separate n (b + 1) where
  dst := by have := h.dst; lia
  traceSrc := fun hj => by have := h.traceSrc hj; lia
  traceDst := fun hj => by have := h.traceDst hj; lia

/-- The writes of the first block leave the later input blocks alone. -/
theorem BlockJob.Separate.later_input {j : BlockJob} {n b k : Nat} {cv x : Quad} {m : Memory} (hk : j.rks.length = 32)
    (h : j.Separate (n + 1) b) (hkn : k < n) :
    loadBlock (blockWrites j b cv x m) (j.src + 16 * (b + 1 + k)) = loadBlock m (j.src + 16 * (b + 1 + k)) := by
  refine loadBlock_congr fun i hi => blockWrites_read_outside hk ?_ fun hj => ?_
  · have := h.dst
    lia
  · have := h.traceSrc hj
    lia

/-- What the loop computes on separate regions: the k-th output block, from the k-th input block as it stood before
the command and the chain value of the blocks before it. -/
theorem runBlocks_output {j : BlockJob} {n b : Nat} {cv : Quad} {m m' : Memory} {x : Nat → Quad}
    (hk : j.rks.length = 32) (hs : j.Separate n b) (hx : ∀ k < n, loadBlock m (j.src + 16 * (b + k)) = some (x k))
    (h : runBlocks j n b cv m = some m') {k : Nat} (hkn : k < n) :
    loadBlock m' (j.dst + 16 * (b + k)) =
      some (chainOutput j.mode j.dir (chainAt j cv x k)
        (crypt (chainInput j.mode j.dir (chainAt j cv x k) (x k)) j.rks).1) := by
  induction n generalizing b cv m x k with
  | zero => lia
  | succ n ih =>
    have hx0 : loadBlock m (j.src + 16 * b) = some (x 0) := hx 0 (by lia)
    rw [runBlocks_succ hx0] at h
    cases k with
    | zero =>
      refine Eq.trans (loadBlock_congr fun i hi => runBlocks_read_outside hk h (by lia) fun hj => ?_)
        (blockWrites_output j b cv (x 0) m)
      have := hs.traceDst hj
      lia
    | succ k =>
      have := ih (x := fun i => x (i + 1)) hs.tail (fun i hi => by
        rw [hs.later_input hk hi]
        have := hx (i + 1) (by lia)
        rwa [show b + (i + 1) = b + 1 + i by lia] at this) h (k := k) (by lia)
      rw [chainAt_shift] at this
      rwa [show b + (k + 1) = b + 1 + k by lia]

/-- What the loop traces on separate regions (R157, R175): record `i` of the k-th block. -/
theorem runBlocks_record {j : BlockJob} {n b : Nat} {cv : Quad} {m m' : Memory} {x : Nat → Quad}
    (hk : j.rks.length = 32) (hs : j.Separate n b) (hx : ∀ k < n, loadBlock m (j.src + 16 * (b + k)) = some (x k))
    (h : runBlocks j n b cv m = some m') (ht : j.traced = true) {k i : Nat} (hkn : k < n)
    (hi : i < (crypt (chainInput j.mode j.dir (chainAt j cv x k) (x k)) j.rks).2.length) :
    memRead m' (j.taddr + 1536 * (b + k) + 48 * i) 48 =
      some ((crypt (chainInput j.mode j.dir (chainAt j cv x k) (x k)) j.rks).2[i].bytes) := by
  induction n generalizing b cv m x k with
  | zero => lia
  | succ n ih =>
    have h32 : i < 32 := by simpa [hk] using hi
    have hts := hs.traceDst ht
    have hx0 : loadBlock m (j.src + 16 * b) = some (x 0) := hx 0 (by lia)
    rw [runBlocks_succ hx0] at h
    cases k with
    | zero =>
      refine Eq.trans (memRead_congr fun i' hi' => runBlocks_read_outside hk h (by lia) fun hj => by lia)
        (blockWrites_record hk ht hi (by lia))
    | succ k =>
      have h2 := chainAt_shift j cv x k
      simp only [← h2] at hi ⊢
      have := ih (x := fun i => x (i + 1)) hs.tail (fun i hi => by
        rw [hs.later_input hk hi]
        have := hx (i + 1) (by lia)
        rwa [show b + (i + 1) = b + 1 + i by lia] at this) h (k := k) (by lia) hi
      rwa [show b + (k + 1) = b + 1 + k by lia]

end Sys2Proof.Machine
end

