-- ==== Sys2Proof/Laws/State.lean ====
section
/-! SUPPORT. One lemma per field per update of the state, so that no proof unfolds a record update. -/

namespace Sys2Proof.Machine

/-! ### Recording a model fault (60_exceptions.md R207) -/

@[simp] theorem State.recordFault_cmd (r : Fault) (s : State) : (s.recordFault r).cmd = s.cmd := rfl
@[simp] theorem State.recordFault_status (r : Fault) (s : State) : (s.recordFault r).status = s.status := rfl
@[simp] theorem State.recordFault_src (r : Fault) (s : State) : (s.recordFault r).src = s.src := rfl
@[simp] theorem State.recordFault_dst (r : Fault) (s : State) : (s.recordFault r).dst = s.dst := rfl
@[simp] theorem State.recordFault_len (r : Fault) (s : State) : (s.recordFault r).len = s.len := rfl
@[simp] theorem State.recordFault_kaddr (r : Fault) (s : State) : (s.recordFault r).kaddr = s.kaddr := rfl
@[simp] theorem State.recordFault_ivaddr (r : Fault) (s : State) : (s.recordFault r).ivaddr = s.ivaddr := rfl
@[simp] theorem State.recordFault_taddr (r : Fault) (s : State) : (s.recordFault r).taddr = s.taddr := rfl
@[simp] theorem State.recordFault_rkf (r : Fault) (s : State) : (s.recordFault r).rkf = s.rkf := rfl
@[simp] theorem State.recordFault_mem (r : Fault) (s : State) : (s.recordFault r).mem = s.mem := rfl
@[simp] theorem State.recordFault_memTop (r : Fault) (s : State) : (s.recordFault r).memTop = s.memTop := rfl
@[simp] theorem State.recordFault_host (r : Fault) (s : State) : (s.recordFault r).host = s.host := rfl
@[simp] theorem State.recordFault_replies (r : Fault) (s : State) : (s.recordFault r).replies = s.replies := rfl
@[simp] theorem State.recordFault_turns (r : Fault) (s : State) : (s.recordFault r).turns = s.turns := rfl
@[simp] theorem State.recordFault_issued (r : Fault) (s : State) : (s.recordFault r).issued = s.issued := rfl

/-! ### Ending with an error (60_exceptions.md R204) -/

@[simp] theorem State.failWith_cmd (e : ErrorCode) (s : State) : (s.failWith e).cmd = s.cmd := rfl
@[simp] theorem State.failWith_status (e : ErrorCode) (s : State) : (s.failWith e).status = statusError e := rfl
@[simp] theorem State.failWith_src (e : ErrorCode) (s : State) : (s.failWith e).src = s.src := rfl
@[simp] theorem State.failWith_dst (e : ErrorCode) (s : State) : (s.failWith e).dst = s.dst := rfl
@[simp] theorem State.failWith_len (e : ErrorCode) (s : State) : (s.failWith e).len = s.len := rfl
@[simp] theorem State.failWith_kaddr (e : ErrorCode) (s : State) : (s.failWith e).kaddr = s.kaddr := rfl
@[simp] theorem State.failWith_ivaddr (e : ErrorCode) (s : State) : (s.failWith e).ivaddr = s.ivaddr := rfl
@[simp] theorem State.failWith_taddr (e : ErrorCode) (s : State) : (s.failWith e).taddr = s.taddr := rfl
@[simp] theorem State.failWith_rkf (e : ErrorCode) (s : State) : (s.failWith e).rkf = s.rkf := rfl
@[simp] theorem State.failWith_mem (e : ErrorCode) (s : State) : (s.failWith e).mem = s.mem := rfl
@[simp] theorem State.failWith_mfault (e : ErrorCode) (s : State) : (s.failWith e).mfault = s.mfault := rfl
@[simp] theorem State.failWith_memTop (e : ErrorCode) (s : State) : (s.failWith e).memTop = s.memTop := rfl
@[simp] theorem State.failWith_host (e : ErrorCode) (s : State) : (s.failWith e).host = s.host := rfl
@[simp] theorem State.failWith_replies (e : ErrorCode) (s : State) : (s.failWith e).replies = s.replies := rfl
@[simp] theorem State.failWith_turns (e : ErrorCode) (s : State) : (s.failWith e).turns = s.turns := rfl
@[simp] theorem State.failWith_issued (e : ErrorCode) (s : State) : (s.failWith e).issued = s.issued := rfl

/-! ### Ending without error (60_exceptions.md R205) -/

@[simp] theorem State.finish_cmd (s : State) : (s.finish).cmd = s.cmd := rfl
@[simp] theorem State.finish_status (s : State) : (s.finish).status = statusDone := rfl
@[simp] theorem State.finish_src (s : State) : (s.finish).src = s.src := rfl
@[simp] theorem State.finish_dst (s : State) : (s.finish).dst = s.dst := rfl
@[simp] theorem State.finish_len (s : State) : (s.finish).len = s.len := rfl
@[simp] theorem State.finish_kaddr (s : State) : (s.finish).kaddr = s.kaddr := rfl
@[simp] theorem State.finish_ivaddr (s : State) : (s.finish).ivaddr = s.ivaddr := rfl
@[simp] theorem State.finish_taddr (s : State) : (s.finish).taddr = s.taddr := rfl
@[simp] theorem State.finish_rkf (s : State) : (s.finish).rkf = s.rkf := rfl
@[simp] theorem State.finish_mem (s : State) : (s.finish).mem = s.mem := rfl
@[simp] theorem State.finish_mfault (s : State) : (s.finish).mfault = s.mfault := rfl
@[simp] theorem State.finish_memTop (s : State) : (s.finish).memTop = s.memTop := rfl
@[simp] theorem State.finish_host (s : State) : (s.finish).host = s.host := rfl
@[simp] theorem State.finish_replies (s : State) : (s.finish).replies = s.replies := rfl
@[simp] theorem State.finish_turns (s : State) : (s.finish).turns = s.turns := rfl
@[simp] theorem State.finish_issued (s : State) : (s.finish).issued = s.issued := rfl

/-! ### Issue (43_block_modes.md R170) -/

@[simp] theorem State.issue_cmd (w : Word) (s : State) : (s.issue w).cmd = w := rfl
@[simp] theorem State.issue_status (w : Word) (s : State) : (s.issue w).status = statusBusy := rfl
@[simp] theorem State.issue_src (w : Word) (s : State) : (s.issue w).src = s.src := rfl
@[simp] theorem State.issue_dst (w : Word) (s : State) : (s.issue w).dst = s.dst := rfl
@[simp] theorem State.issue_len (w : Word) (s : State) : (s.issue w).len = s.len := rfl
@[simp] theorem State.issue_kaddr (w : Word) (s : State) : (s.issue w).kaddr = s.kaddr := rfl
@[simp] theorem State.issue_ivaddr (w : Word) (s : State) : (s.issue w).ivaddr = s.ivaddr := rfl
@[simp] theorem State.issue_taddr (w : Word) (s : State) : (s.issue w).taddr = s.taddr := rfl
@[simp] theorem State.issue_rkf (w : Word) (s : State) : (s.issue w).rkf = s.rkf := rfl
@[simp] theorem State.issue_mem (w : Word) (s : State) : (s.issue w).mem = s.mem := rfl
@[simp] theorem State.issue_mfault (w : Word) (s : State) : (s.issue w).mfault = s.mfault := rfl
@[simp] theorem State.issue_memTop (w : Word) (s : State) : (s.issue w).memTop = s.memTop := rfl
@[simp] theorem State.issue_host (w : Word) (s : State) : (s.issue w).host = s.host := rfl
@[simp] theorem State.issue_replies (w : Word) (s : State) : (s.issue w).replies = s.replies := rfl
@[simp] theorem State.issue_turns (w : Word) (s : State) : (s.issue w).turns = Config.hostTurns s.issued := rfl
@[simp] theorem State.issue_issued (w : Word) (s : State) : (s.issue w).issued = s.issued + 1 := rfl

/-! ### A command placed for the next step -/

@[simp] theorem State.placeCommand_cmd (w : Word) (s : State) : (s.placeCommand w).cmd = w := rfl
@[simp] theorem State.placeCommand_status (w : Word) (s : State) : (s.placeCommand w).status = statusBusy := rfl
@[simp] theorem State.placeCommand_src (w : Word) (s : State) : (s.placeCommand w).src = s.src := rfl
@[simp] theorem State.placeCommand_dst (w : Word) (s : State) : (s.placeCommand w).dst = s.dst := rfl
@[simp] theorem State.placeCommand_len (w : Word) (s : State) : (s.placeCommand w).len = s.len := rfl
@[simp] theorem State.placeCommand_kaddr (w : Word) (s : State) : (s.placeCommand w).kaddr = s.kaddr := rfl
@[simp] theorem State.placeCommand_ivaddr (w : Word) (s : State) : (s.placeCommand w).ivaddr = s.ivaddr := rfl
@[simp] theorem State.placeCommand_taddr (w : Word) (s : State) : (s.placeCommand w).taddr = s.taddr := rfl
@[simp] theorem State.placeCommand_rkf (w : Word) (s : State) : (s.placeCommand w).rkf = s.rkf := rfl
@[simp] theorem State.placeCommand_mem (w : Word) (s : State) : (s.placeCommand w).mem = s.mem := rfl
@[simp] theorem State.placeCommand_mfault (w : Word) (s : State) : (s.placeCommand w).mfault = none := rfl
@[simp] theorem State.placeCommand_memTop (w : Word) (s : State) : (s.placeCommand w).memTop = s.memTop := rfl
@[simp] theorem State.placeCommand_host (w : Word) (s : State) : (s.placeCommand w).host = s.host := rfl
@[simp] theorem State.placeCommand_replies (w : Word) (s : State) : (s.placeCommand w).replies = s.replies := rfl
@[simp] theorem State.placeCommand_turns (w : Word) (s : State) : (s.placeCommand w).turns = 0 := rfl
@[simp] theorem State.placeCommand_issued (w : Word) (s : State) : (s.placeCommand w).issued = s.issued := rfl

/-! ### A reply to the host -/

@[simp] theorem State.reply_cmd (r : Reply) (s : State) : (s.reply r).cmd = s.cmd := rfl
@[simp] theorem State.reply_status (r : Reply) (s : State) : (s.reply r).status = s.status := rfl
@[simp] theorem State.reply_src (r : Reply) (s : State) : (s.reply r).src = s.src := rfl
@[simp] theorem State.reply_dst (r : Reply) (s : State) : (s.reply r).dst = s.dst := rfl
@[simp] theorem State.reply_len (r : Reply) (s : State) : (s.reply r).len = s.len := rfl
@[simp] theorem State.reply_kaddr (r : Reply) (s : State) : (s.reply r).kaddr = s.kaddr := rfl
@[simp] theorem State.reply_ivaddr (r : Reply) (s : State) : (s.reply r).ivaddr = s.ivaddr := rfl
@[simp] theorem State.reply_taddr (r : Reply) (s : State) : (s.reply r).taddr = s.taddr := rfl
@[simp] theorem State.reply_rkf (r : Reply) (s : State) : (s.reply r).rkf = s.rkf := rfl
@[simp] theorem State.reply_mem (r : Reply) (s : State) : (s.reply r).mem = s.mem := rfl
@[simp] theorem State.reply_mfault (r : Reply) (s : State) : (s.reply r).mfault = s.mfault := rfl
@[simp] theorem State.reply_memTop (r : Reply) (s : State) : (s.reply r).memTop = s.memTop := rfl
@[simp] theorem State.reply_host (r : Reply) (s : State) : (s.reply r).host = s.host := rfl
@[simp] theorem State.reply_replies (r : Reply) (s : State) : (s.reply r).replies = s.replies ++ [r] := rfl
@[simp] theorem State.reply_turns (r : Reply) (s : State) : (s.reply r).turns = s.turns := rfl
@[simp] theorem State.reply_issued (r : Reply) (s : State) : (s.reply r).issued = s.issued := rfl

/-! ### Reset (70_reset_and_hazards.md R230) -/

@[simp] theorem State.hardReset_cmd (s : State) : (s.hardReset).cmd = 0#32 := rfl
@[simp] theorem State.hardReset_status (s : State) : (s.hardReset).status = 0#32 := rfl
@[simp] theorem State.hardReset_src (s : State) : (s.hardReset).src = 0#32 := rfl
@[simp] theorem State.hardReset_dst (s : State) : (s.hardReset).dst = 0#32 := rfl
@[simp] theorem State.hardReset_len (s : State) : (s.hardReset).len = 0#32 := rfl
@[simp] theorem State.hardReset_kaddr (s : State) : (s.hardReset).kaddr = 0#32 := rfl
@[simp] theorem State.hardReset_ivaddr (s : State) : (s.hardReset).ivaddr = 0#32 := rfl
@[simp] theorem State.hardReset_taddr (s : State) : (s.hardReset).taddr = 0#32 := rfl
@[simp] theorem State.hardReset_rkf (s : State) : (s.hardReset).rkf = Vector.replicate 32 0#32 := rfl
@[simp] theorem State.hardReset_mem (s : State) : (s.hardReset).mem = [] := rfl
@[simp] theorem State.hardReset_mfault (s : State) : (s.hardReset).mfault = none := rfl
@[simp] theorem State.hardReset_memTop (s : State) : (s.hardReset).memTop = s.memTop := rfl
@[simp] theorem State.hardReset_host (s : State) : (s.hardReset).host = s.host := rfl
@[simp] theorem State.hardReset_replies (s : State) : (s.hardReset).replies = s.replies := rfl
@[simp] theorem State.hardReset_turns (s : State) : (s.hardReset).turns = 0 := rfl
@[simp] theorem State.hardReset_issued (s : State) : (s.hardReset).issued = s.issued := rfl

/-- The first model fault is the one recorded, and nothing else changes (10_state.md R38). -/
theorem State.recordFault_of_none {r : Fault} {s : State} (h : s.mfault = none) :
    s.recordFault r = { s with mfault := some r } := by simp [State.recordFault, h]

/-- The first model fault is recorded. -/
theorem State.recordFault_mfault_of_none {r : Fault} {s : State} (h : s.mfault = none) :
    (s.recordFault r).mfault = some r := by simp [State.recordFault, h]

/-- A recorded model fault stays (10_state.md R38). -/
theorem State.recordFault_mfault_of_some {r q : Fault} {s : State} (h : s.mfault = some q) :
    (s.recordFault r).mfault = some q := by simp [State.recordFault, h]

/-- After recording, some model fault is recorded. -/
theorem State.recordFault_mfault_ne_none (r : Fault) (s : State) : (s.recordFault r).mfault ≠ none := by
  cases h : s.mfault with
  | none => simp [State.recordFault_mfault_of_none h]
  | some q => simp [State.recordFault_mfault_of_some h]

/-! ### A host turn (log 3) -/

@[simp] theorem State.spendTurn_cmd (s : State) : s.spendTurn.cmd = s.cmd := by unfold State.spendTurn; split <;> rfl
@[simp] theorem State.spendTurn_status (s : State) : s.spendTurn.status = s.status := by unfold State.spendTurn; split <;> rfl
@[simp] theorem State.spendTurn_src (s : State) : s.spendTurn.src = s.src := by unfold State.spendTurn; split <;> rfl
@[simp] theorem State.spendTurn_dst (s : State) : s.spendTurn.dst = s.dst := by unfold State.spendTurn; split <;> rfl
@[simp] theorem State.spendTurn_len (s : State) : s.spendTurn.len = s.len := by unfold State.spendTurn; split <;> rfl
@[simp] theorem State.spendTurn_kaddr (s : State) : s.spendTurn.kaddr = s.kaddr := by unfold State.spendTurn; split <;> rfl
@[simp] theorem State.spendTurn_ivaddr (s : State) : s.spendTurn.ivaddr = s.ivaddr := by unfold State.spendTurn; split <;> rfl
@[simp] theorem State.spendTurn_taddr (s : State) : s.spendTurn.taddr = s.taddr := by unfold State.spendTurn; split <;> rfl
@[simp] theorem State.spendTurn_rkf (s : State) : s.spendTurn.rkf = s.rkf := by unfold State.spendTurn; split <;> rfl
@[simp] theorem State.spendTurn_mem (s : State) : s.spendTurn.mem = s.mem := by unfold State.spendTurn; split <;> rfl
@[simp] theorem State.spendTurn_mfault (s : State) : s.spendTurn.mfault = s.mfault := by unfold State.spendTurn; split <;> rfl
@[simp] theorem State.spendTurn_memTop (s : State) : s.spendTurn.memTop = s.memTop := by unfold State.spendTurn; split <;> rfl
@[simp] theorem State.spendTurn_host (s : State) : s.spendTurn.host = s.host := by unfold State.spendTurn; split <;> rfl
@[simp] theorem State.spendTurn_replies (s : State) : s.spendTurn.replies = s.replies := by unfold State.spendTurn; split <;> rfl
@[simp] theorem State.spendTurn_issued (s : State) : s.spendTurn.issued = s.issued := by unfold State.spendTurn; split <;> rfl

/-- An idle engine counts no turn. -/
theorem State.spendTurn_of_idle {s : State} (h : s.busy = false) : s.spendTurn = s := by simp [State.spendTurn, h]

/-- A busy engine counts one. -/
theorem State.spendTurn_of_busy {s : State} (h : s.busy = true) : s.spendTurn = { s with turns := s.turns - 1 } := by
  simp [State.spendTurn, h]

/-! ### What depends on one field only -/

/-- BUSY is read from STATUS. -/
theorem State.busy_congr {s t : State} (h : s.status = t.status) : s.busy = t.busy := by simp [State.busy, h]

@[simp] theorem State.spendTurn_busy (s : State) : s.spendTurn.busy = s.busy := State.busy_congr (by simp)

/-- MEM_BYTES is read from the parameter. -/
theorem State.memBytes_congr {s t : State} (h : s.memTop = t.memTop) : s.memBytes = t.memBytes := by
  simp [State.memBytes, h]

/-- MEM_BYTES is positive and at most 2^32 (00_scope.md R8). -/
theorem State.memBytes_bounds (s : State) : 1 ≤ s.memBytes ∧ s.memBytes ≤ 2 ^ 32 := by
  have := s.memTop.isLt
  unfold State.memBytes
  omega

/-! ### The values of STATUS -/

@[simp] theorem statusError_unsupportedConfig : statusError .unsupportedConfig = 0x00000016#32 := by decide

@[simp] theorem statusError_invalidLength : statusError .invalidLength = 0x00000026#32 := by decide

@[simp] theorem statusError_addressRange : statusError .addressRange = 0x00000036#32 := by decide

/-- The three fields of an error STATUS are DONE, ERR and the code; BUSY is 0. -/
theorem statusError_fields (e : ErrorCode) (s : State) :
    (s.failWith e).busy = false ∧ (s.failWith e).done = true ∧ (s.failWith e).err = true ∧
      (s.failWith e).errCode = e.number.setWidth 4 := by
  cases e <;> simp [State.busy, State.done, State.err, State.errCode, ErrorCode.number]

/-- A command that ended without error. -/
theorem finish_fields (s : State) :
    s.finish.busy = false ∧ s.finish.done = true ∧ s.finish.err = false ∧ s.finish.errCode = 0#4 := by
  simp [State.busy, State.done, State.err, State.errCode, statusDone]

/-- An issued command is pending. -/
theorem issue_fields (w : Word) (s : State) :
    (s.issue w).busy = true ∧ (s.issue w).done = false ∧ (s.issue w).err = false ∧ (s.issue w).errCode = 0#4 := by
  simp [State.busy, State.done, State.err, State.errCode, statusBusy]

end Sys2Proof.Machine
end

