-- ==== Sys2Proof/Laws/Command.lean ====
section
/-! SUPPORT. The laws of a command's completion step (43_block_modes.md R171): its checks, and the three ways it can
end. -/

namespace Sys2Proof.Machine

/-- Everything a completion can do: an error code and only STATUS changes (R204), an undefined read that is recorded
(R207), or the body and STATUS = 0x00000002 (R205). -/
theorem completeWith_cases (check : Option ErrorCode) (body : State → Option State) (s : State) :
    (∃ e, check = some e ∧ completeWith check body s = s.failWith e) ∨
      (check = none ∧ body s = none ∧ completeWith check body s = s.recordFault .undefinedRead) ∨
      (∃ t, check = none ∧ body s = some t ∧ completeWith check body s = t.finish) := by
  cases check with
  | some e => exact .inl ⟨e, rfl, rfl⟩
  | none =>
    cases h : body s with
    | none => exact .inr (.inl ⟨rfl, rfl, by simp [completeWith, h]⟩)
    | some t => exact .inr (.inr ⟨t, rfl, rfl, by simp [completeWith, h]⟩)

/-- The check of KSCHED passes exactly when the key region is in range (R129). -/
theorem checkKsched_eq_none_iff {s : State} : checkKsched s = none ↔ s.kaddr.toNat + 16 ≤ s.memBytes := by
  unfold checkKsched State.inRange
  split <;> simp_all

/-- KSCHED's only error is ADDRESS_RANGE. -/
theorem checkKsched_eq_some_iff {s : State} {e : ErrorCode} :
    checkKsched s = some e ↔ e = .addressRange ∧ s.memBytes < s.kaddr.toNat + 16 := by
  unfold checkKsched State.inRange
  split <;> simp_all [eq_comm]

/-- The length is a positive multiple of 16. -/
theorem State.lengthOk_iff {s : State} : s.lengthOk = true ↔ s.len.toNat ≠ 0 ∧ s.len.toNat % 16 = 0 := by
  simp [State.lengthOk]

/-- INVALID_LENGTH outranks every range error (R203). -/
theorem checkBlocks_eq_invalidLength_iff {mode : Mode} {trc : Bool} {s : State} :
    checkBlocks mode trc s = some .invalidLength ↔ s.len.toNat = 0 ∨ s.len.toNat % 16 ≠ 0 := by
  unfold checkBlocks
  cases h : s.lengthOk with
  | false =>
    have := mt (State.lengthOk_iff (s := s)).2 (by simp [h])
    simp only [Bool.not_false, if_true, true_iff]
    omega
  | true =>
    have := State.lengthOk_iff.1 h
    constructor
    · intro hc
      grind
    · omega

/-- The checks of an ECB or CBC command pass exactly when the length is a positive multiple of 16 and every region
the command touches is in range (R202). -/
theorem checkBlocks_eq_none_iff {mode : Mode} {trc : Bool} {s : State} :
    checkBlocks mode trc s = none ↔
      (s.len.toNat ≠ 0 ∧ s.len.toNat % 16 = 0) ∧ s.kaddr.toNat + 16 ≤ s.memBytes ∧
        (mode = .cbc → s.ivaddr.toNat + 16 ≤ s.memBytes) ∧ s.src.toNat + s.len.toNat ≤ s.memBytes ∧
        s.dst.toNat + s.len.toNat ≤ s.memBytes ∧ (trc = true → s.taddr.toNat + 1536 * s.blocks ≤ s.memBytes) := by
  rw [← State.lengthOk_iff]
  unfold checkBlocks State.inRange traceBytes
  cases s.lengthOk <;> cases mode <;> cases trc <;> simp <;> grind

/-- The only other error is ADDRESS_RANGE. -/
theorem checkBlocks_ne_unsupportedConfig (mode : Mode) (trc : Bool) (s : State) :
    checkBlocks mode trc s ≠ some .unsupportedConfig := by
  unfold checkBlocks
  repeat (split; · simp)
  simp

/-- Everything the body of an ECB or CBC command can do when it runs to its end: the key (and for CBC the IV) is read,
RKF takes its round keys, and MEM is what the block loop leaves. -/
theorem blockBody_eq_some_iff {mode : Mode} {dir : Dir} {trc : Bool} {s t : State} :
    blockBody mode dir trc s = some t ↔
      ∃ key cv m, loadBlock s.mem s.kaddr.toNat = some key ∧ firstChain mode s = some cv ∧
        runBlocks (jobOf mode dir trc (keyExpand key) s) s.blocks 0 cv s.mem = some m ∧
        t = { s with rkf := keyExpand key, mem := m } := by
  unfold blockBody
  constructor
  · intro h
    cases hk : loadBlock s.mem s.kaddr.toNat with
    | none => simp [hk] at h
    | some key =>
      cases hc : firstChain mode s with
      | none => simp [hk, hc] at h
      | some cv =>
        cases hr : runBlocks (jobOf mode dir trc (keyExpand key) s) s.blocks 0 cv s.mem with
        | none => simp [hk, hc, hr] at h
        | some m =>
          simp only [hk, hc, hr, Option.some.injEq] at h
          exact ⟨key, cv, m, rfl, rfl, hr, h.symm⟩
  · rintro ⟨key, cv, m, hk, hc, hr, rfl⟩
    simp [hk, hc, hr]

@[simp] theorem jobOf_rks_length (mode : Mode) (dir : Dir) (trc : Bool) (rk : Vector Word 32) (s : State) :
    (jobOf mode dir trc rk s).rks.length = 32 := keySequence_length dir rk

/-- Bytes defined before the command are defined when it reads them. -/
theorem State.readsDefined_of_inputsDefined {s : State} {mode : Mode} (trc : Bool) (h : s.inputsDefined mode) :
    s.readsDefined mode trc := ⟨h.1, h.2.1, fun k hk => .inl (h.2.2 k hk)⟩

/-- The body of an ECB or CBC command whose checks pass runs to its end exactly when every byte it reads is defined when
it reads it (R74, R75, R174). -/
theorem blockBody_isSome_iff {mode : Mode} {dir : Dir} {trc : Bool} {s : State} (hc : checkBlocks mode trc s = none) :
    (blockBody mode dir trc s).isSome = true ↔ s.readsDefined mode trc := by
  have hl : s.len.toNat = 16 * s.blocks := by
    have := (checkBlocks_eq_none_iff.1 hc).1
    unfold State.blocks
    omega
  have hin : ∀ key cv, (runBlocks (jobOf mode dir trc (keyExpand key) s) s.blocks 0 cv s.mem).isSome = true ↔
      ∀ k < s.len.toNat, s.inputByteReadable trc k := by
    intro key cv
    rw [runBlocks_isSome_iff (jobOf_rks_length ..), hl]
    simp only [jobOf, BlockJob.Writes, Nat.zero_add, Nat.mul_zero, Nat.add_zero]
  have hiv : (firstChain mode s).isSome = true ↔ (mode = .cbc → s.mem.definedOn s.ivaddr.toNat 16) := by
    cases mode with
    | ecb => simp [firstChain]
    | cbc => simp [firstChain, loadBlock_isSome_iff]
  unfold State.readsDefined
  rw [← loadBlock_isSome_iff, ← hiv]
  unfold blockBody
  cases hk : loadBlock s.mem s.kaddr.toNat with
  | none => simp
  | some key =>
    cases hcv : firstChain mode s with
    | none => simp
    | some cv =>
      rw [← hin key cv]
      cases hr : runBlocks (jobOf mode dir trc (keyExpand key) s) s.blocks 0 cv s.mem <;> simp [hr]

/-- The body of KSCHED (R129). -/
theorem kschedBody_eq_some_iff {s t : State} :
    kschedBody s = some t ↔
      ∃ key, loadBlock s.mem s.kaddr.toNat = some key ∧ t = { s with rkf := keyExpand key } := by
  unfold kschedBody
  cases loadBlock s.mem s.kaddr.toNat with
  | none => simp
  | some key => simp [eq_comm]

/-- Every command is KSCHED or a block command of its shape. -/
theorem exec_eq (i : Instr) (s : State) :
    exec i s = .next (match commandShape i with
      | none => completeWith (checkKsched s) kschedBody s
      | some (mode, dir, trc) => blockCommand mode dir trc s) := by
  cases i <;> rfl

end Sys2Proof.Machine
end

