-- ==== Sys2Proof/Laws/PerInstr.lean ====
section
/-! SUPPORT. A family of statements, one per command: its word decodes to it, is well formed, and is the word of
30_encoding.md R87. -/

namespace Sys2Proof.Laws.Encoding

/-- The word R87 lists for a command. -/
def listedWord : Instr → Word
  | .ksched => 0x00000001#32
  | .ecbEnc => 0x00000002#32
  | .ecbEncT => 0x00000022#32
  | .ecbDec => 0x00000012#32
  | .ecbDecT => 0x00000032#32
  | .cbcEnc => 0x00000003#32
  | .cbcEncT => 0x00000023#32
  | .cbcDec => 0x00000013#32
  | .cbcDecT => 0x00000033#32

/-- The encoder gives the listed word, the decoder reads it back, and it passes the checks of R81–R84. -/
def Statement (i : Instr) : Prop :=
  encode i = listedWord i ∧ decode (encode i) = .command i ∧ wordWellFormed (encode i) = true ∧ i.wellFormed = true

theorem ksched : Statement .ksched := by unfold Statement; decide

theorem ecbEnc : Statement .ecbEnc := by unfold Statement; decide

theorem ecbEncT : Statement .ecbEncT := by unfold Statement; decide

theorem ecbDec : Statement .ecbDec := by unfold Statement; decide

theorem ecbDecT : Statement .ecbDecT := by unfold Statement; decide

theorem cbcEnc : Statement .cbcEnc := by unfold Statement; decide

theorem cbcEncT : Statement .cbcEncT := by unfold Statement; decide

theorem cbcDec : Statement .cbcDec := by unfold Statement; decide

theorem cbcDecT : Statement .cbcDecT := by unfold Statement; decide

end Sys2Proof.Laws.Encoding
end

