-- ==== Sys2Proof/Laws/Step.lean ====
section
/-! SUPPORT. Everything a step can do, said once: the four turns, the engine's completion, the host's events. -/

namespace Sys2Proof.Machine

/-- The register map read backwards: each register stands at its own offset (10_state.md R24). -/
@[simp] theorem regOfOffset_offset (r : RegName) : regOfOffset r.offset = some r := by
  cases r with
  | rk i => revert i; decide
  | _ => rfl

/-- Every register offset is a legal 32-bit access (R35). -/
@[simp] theorem regAccessOk_offset (r : RegName) : regAccessOk r.offset 32 = true := by
  cases r with
  | rk i => revert i; decide
  | _ => rfl

@[simp] theorem readOffset_offset (s : State) (r : RegName) : s.readOffset r.offset = s.reg r := by
  simp [State.readOffset]

@[simp] theorem writeOffset_offset (r : RegName) (v : Word) (s : State) :
    writeOffset r.offset v s = writeRegister r v s := by simp [writeOffset]

/-- Everything a register write can do: issue, one argument register, or nothing. -/
theorem writeOffset_cases (off : BitVec 8) (v : Word) (s : State) :
    (regOfOffset off = some .cmd ∧ writeOffset off v s = s.issue v) ∨
      (regOfOffset off = some .src ∧ writeOffset off v s = { s with src := v }) ∨
      (regOfOffset off = some .dst ∧ writeOffset off v s = { s with dst := v }) ∨
      (regOfOffset off = some .len ∧ writeOffset off v s = { s with len := v }) ∨
      (regOfOffset off = some .kaddr ∧ writeOffset off v s = { s with kaddr := v }) ∨
      (regOfOffset off = some .ivaddr ∧ writeOffset off v s = { s with ivaddr := v }) ∨
      (regOfOffset off = some .taddr ∧ writeOffset off v s = { s with taddr := v }) ∨
      ((regOfOffset off = none ∨ regOfOffset off = some .status ∨ ∃ i, regOfOffset off = some (.rk i)) ∧
        writeOffset off v s = s) := by
  unfold writeOffset
  cases h : regOfOffset off with
  | none => simp
  | some r => cases r <;> simp [writeRegister]

/-- Everything an event can do, on a state `s` with the events `rest` after it: record a model fault, write a
register of an idle engine, write a byte of MEM, give the host a reply, or reset the engine. -/
theorem hostStep_cases (e : HostEvent) (rest : List HostEvent) (s : State) :
    (∃ r, hostStep e rest s = { s with host := rest }.recordFault r) ∨
      (∃ off v, e = .writeReg off 32 v ∧ s.busy = false ∧ hostStep e rest s = writeOffset off v { s with host := rest }) ∨
      (∃ a v, e = .writeByte a v ∧ a < s.memBytes ∧ s.busy = false ∧
        hostStep e rest s = { s with host := rest, mem := s.mem.write a v }) ∨
      (∃ r q, hostStep e rest s = { s with host := q }.reply r) ∨
      (e = .reset ∧ hostStep e rest s = { s.hardReset with host := rest }) := by
  cases e with
  | writeReg off bits v =>
    simp only [hostStep, hostWriteReg]
    split
    · exact .inl ⟨_, rfl⟩
    · rename_i hok
      split
      · exact .inl ⟨_, rfl⟩
      · rename_i hb
        have h32 : bits = 32 := by simp_all [regAccessOk]
        subst h32
        exact .inr (.inl ⟨off, v, rfl, Bool.eq_false_of_not_eq_true hb, rfl⟩)
  | readReg off bits =>
    simp only [hostStep, hostReadReg]
    split
    · exact .inl ⟨_, rfl⟩
    · split
      · exact .inl ⟨_, rfl⟩
      · exact .inr (.inr (.inr (.inl ⟨_, rest, rfl⟩)))
  | writeByte a v =>
    simp only [hostStep, hostWriteByte]
    split
    · exact .inl ⟨_, rfl⟩
    · rename_i ha
      split
      · exact .inl ⟨_, rfl⟩
      · rename_i hb
        exact .inr (.inr (.inl ⟨a, v, rfl, Nat.lt_of_not_le ha, Bool.eq_false_of_not_eq_true hb, rfl⟩))
  | readByte a =>
    simp only [hostStep, hostReadByte]
    split
    · exact .inl ⟨_, rfl⟩
    · split
      · exact .inl ⟨_, rfl⟩
      · split
        · exact .inl ⟨_, rfl⟩
        · exact .inr (.inr (.inr (.inl ⟨_, rest, rfl⟩)))
  | poll =>
    simp only [hostStep, hostPoll]
    split
    · exact .inr (.inr (.inr (.inl ⟨_, .poll :: rest, rfl⟩)))
    · exact .inr (.inr (.inr (.inl ⟨_, rest, rfl⟩)))
  | reset => exact .inr (.inr (.inr (.inr ⟨rfl, rfl⟩)))

/-- Everything the engine's step can do: it always answers a next state, of an Illegal word's error or of the decoded
command (43_block_modes.md R171). -/
theorem engineStep_cases (s : State) :
    (∃ why, decode s.cmd = .illegal why ∧ engineStep s = .next (s.failWith .unsupportedConfig)) ∨
      ∃ i, decode s.cmd = .command i ∧ engineStep s = exec i s := by
  unfold engineStep
  cases h : decode s.cmd with
  | illegal why => exact .inl ⟨why, rfl, rfl⟩
  | command i => exact .inr ⟨i, rfl, rfl⟩

/-- A legal word's completion is its command's. -/
theorem engineStep_of_command {s : State} {i : Instr} (h : decode s.cmd = .command i) : engineStep s = exec i s := by
  simp only [engineStep, h]

/-- An illegal word's completion. -/
theorem engineStep_of_illegal {s : State} {why : IllegalWord} (h : decode s.cmd = .illegal why) :
    engineStep s = .next (s.failWith .unsupportedConfig) := by simp only [engineStep, h]

/-- Everything a step can do. -/
theorem step_cases (s : State) :
    (∃ r, s.mfault = some r ∧ (∀ rest, s.host ≠ .reset :: rest) ∧ step s = .fault r) ∨
      (s.mfault = none ∧ s.busy = true ∧ (s.host = [] ∨ s.turns = 0) ∧ step s = engineStep s) ∨
      (∃ e rest, s.host = e :: rest ∧ (s.mfault = none ∧ (s.busy = false ∨ s.turns ≠ 0) ∨ e = .reset ∧ s.mfault ≠ none) ∧
        step s = .next (hostStep e rest s.spendTurn)) ∨
      (s.mfault = none ∧ s.busy = false ∧ s.host = [] ∧ step s = .next s) := by
  unfold step nextTurn
  cases hm : s.mfault with
  | some r =>
    cases hh : s.host with
    | nil => exact .inl ⟨r, rfl, by simp, rfl⟩
    | cons e rest =>
      cases e with
      | reset => exact .inr (.inr (.inl ⟨.reset, rest, rfl, .inr ⟨rfl, by simp⟩, rfl⟩))
      | _ => exact .inl ⟨r, rfl, by simp, rfl⟩
  | none =>
    cases hh : s.host with
    | nil =>
      cases hb : s.busy with
      | true => exact .inr (.inl ⟨rfl, rfl, .inl rfl, rfl⟩)
      | false => exact .inr (.inr (.inr ⟨rfl, rfl, rfl, rfl⟩))
    | cons e rest =>
      cases hb : s.busy && s.turns == 0 with
      | true =>
        have hbt : s.busy = true ∧ s.turns = 0 := by simpa using hb
        exact .inr (.inl ⟨rfl, hbt.1, .inr hbt.2, by simp [runTurn]⟩)
      | false =>
        refine .inr (.inr (.inl ⟨e, rest, rfl, .inl ⟨rfl, ?_⟩, by simp [runTurn]⟩))
        cases hbusy : s.busy <;> simp_all

/-- The turn of a pending command. -/
theorem nextTurn_engine {s : State} (hm : s.mfault = none) (hb : s.busy = true) (ht : s.host = [] ∨ s.turns = 0) :
    nextTurn s = .engine := by
  unfold nextTurn
  cases hh : s.host with
  | nil => simp [hm, hb]
  | cons e rest =>
    have : s.turns = 0 := by simpa [hh] using ht
    simp [hm, hb, this]

/-- The turn of an idle engine's host. -/
theorem nextTurn_host_idle {s : State} {e : HostEvent} {rest : List HostEvent} (hm : s.mfault = none)
    (hb : s.busy = false) (hh : s.host = e :: rest) : nextTurn s = .host e rest := by
  simp [nextTurn, hm, hb, hh]

/-- The turn of the host of a busy engine. -/
theorem nextTurn_host_busy {s : State} {e : HostEvent} {rest : List HostEvent} (hm : s.mfault = none)
    (ht : s.turns ≠ 0) (hh : s.host = e :: rest) : nextTurn s = .host e rest := by
  simp [nextTurn, hm, ht, hh]

/-- A host step of an idle engine. -/
theorem step_host_idle {s : State} {e : HostEvent} {rest : List HostEvent} (hm : s.mfault = none)
    (hb : s.busy = false) (hh : s.host = e :: rest) : step s = .next (hostStep e rest s) := by
  simp [step, nextTurn_host_idle hm hb hh, runTurn, State.spendTurn_of_idle hb]

/-- A host step of a busy engine. -/
theorem step_host_busy {s : State} {e : HostEvent} {rest : List HostEvent} (hm : s.mfault = none)
    (hb : s.busy = true) (ht : s.turns ≠ 0) (hh : s.host = e :: rest) :
    step s = .next (hostStep e rest { s with turns := s.turns - 1 }) := by
  simp [step, nextTurn_host_busy hm ht hh, runTurn, State.spendTurn_of_busy hb]

/-- The completion of a pending command. -/
theorem step_engine {s : State} (hm : s.mfault = none) (hb : s.busy = true) (ht : s.host = [] ∨ s.turns = 0) :
    step s = engineStep s := by
  simp [step, nextTurn_engine hm hb ht, runTurn]

/-- A placed command word is the one the next step completes. -/
theorem step_placeCommand (s : State) (w : Word) : step (s.placeCommand w) = engineStep (s.placeCommand w) :=
  step_engine rfl (by simp [State.busy, statusBusy]) (.inr rfl)

/-- One step of a run of the machine behind the host's interface. -/
theorem run_succ {s t : State} (n : Nat) (h : step s = .next t) :
    Host.Core.run core (n + 1) s = Host.Core.run core n t := by
  have : core.step s = .next t := h
  simp [Host.Core.run, this]

/-- Everything a command can do to the state: an error that shows in STATUS only, a recorded undefined read, or new round
keys and a new MEM with STATUS = 0x00000002, where MEM stays canonical and within its size. -/
theorem exec_cases {i : Instr} {s t : State} (h : exec i s = .next t) :
    (∃ e, t = s.failWith e) ∨ t = s.recordFault .undefinedRead ∨
      ∃ key m, t = ({ s with rkf := keyExpand key, mem := m } : State).finish ∧ (s.mem.wf → m.wf) ∧
        ((∀ c ∈ s.mem, c.1 < s.memBytes) → ∀ c ∈ m, c.1 < s.memBytes) := by
  rw [exec_eq] at h
  have h := Host.Outcome.next.inj h
  cases hc : commandShape i with
  | none =>
    rw [hc] at h
    rcases completeWith_cases (checkKsched s) kschedBody s with ⟨e, _, h'⟩ | ⟨_, _, h'⟩ | ⟨u, _, hb, h'⟩
    · exact .inl ⟨e, by rw [← h, ← h']⟩
    · exact .inr (.inl (by rw [← h, ← h']))
    · obtain ⟨key, _, rfl⟩ := kschedBody_eq_some_iff.1 hb
      exact .inr (.inr ⟨key, s.mem, by rw [← h, ← h'], id, id⟩)
  | some p =>
    obtain ⟨mode, dir, trc⟩ := p
    rw [hc] at h
    simp only [blockCommand] at h
    rcases completeWith_cases (checkBlocks mode trc s) (blockBody mode dir trc) s with
      ⟨e, _, h'⟩ | ⟨_, _, h'⟩ | ⟨u, hn, hb, h'⟩
    · exact .inl ⟨e, by rw [← h, ← h']⟩
    · exact .inr (.inl (by rw [← h, ← h']))
    · obtain ⟨key, cv, m, _, _, hr, rfl⟩ := blockBody_eq_some_iff.1 hb
      refine .inr (.inr ⟨key, m, by rw [← h, ← h'], runBlocks_wf hr, fun hbelow => ?_⟩)
      obtain ⟨hl, _, _, _, hd, ht⟩ := checkBlocks_eq_none_iff.1 hn
      have : s.len.toNat = 16 * s.blocks := by unfold State.blocks; omega
      refine runBlocks_below (jobOf_rks_length ..) hr (by simp only [jobOf]; omega) (fun hj => ?_) hbelow
      simpa only [jobOf, Nat.zero_add] using ht hj

/-- The memory right after reset is canonical. -/
theorem reset_mem_wf : State.reset.mem.wf := List.Pairwise.nil

end Sys2Proof.Machine
end

