-- ==== Sys2Proof/Tests/Slice0.lean ====
section
/-! SUPPORT. The model's own tests: expected values from spec/95_test_vectors.md (V1–V26), one step each, and for every
statement with hypotheses a witness that meets them. -/

namespace Sys2Proof.Tests

open Sys2Proof.Machine

/- The tests are elaborated one after another: each has a stack of its own, and many at once ask for more memory than
the check allows. -/
set_option Elab.async false

/-! ### A small state: MEM_BYTES = 4096 and the registers of V26 -/

/-- KEY_STD and PT0 of 95_test_vectors.md. -/
def keyStd : List Byte := wordsToBytes [0x01234567#32, 0x89ABCDEF#32, 0xFEDCBA98#32, 0x76543210#32]

/-- PT1. -/
def plain1 : List Byte := wordsToBytes [0x00112233#32, 0x44556677#32, 0x8899AABB#32, 0xCCDDEEFF#32]

/-- IV0. -/
def iv0 : List Byte := wordsToBytes [0x00010203#32, 0x04050607#32, 0x08090A0B#32, 0x0C0D0E0F#32]

/-- The ciphertext of V1. -/
def cipher0 : List Byte := wordsToBytes [0x681EDF34#32, 0xD206965E#32, 0x86B3E94F#32, 0x536E4246#32]

/-- MEM with KEY_STD at 0, IV0 at 0x10 and `data` at 0x100. -/
def memWith (data : List Byte) : Memory := memWrite (memWrite (memWrite [] 0x000 keyStd) 0x010 iv0) 0x100 data

/-- The registers of V26 over a memory of 4096 bytes, with `data` at SRC and LEN its length. -/
def stateWith (data : List Byte) : State :=
  { State.resetOf 0xFFF#32 with
    src := 0x100#32
    dst := 0x300#32
    len := BitVec.ofNat 32 data.length
    kaddr := 0x000#32
    ivaddr := 0x010#32
    taddr := 0x400#32
    mem := memWith data }

/-- PT0 at SRC: one block. -/
def oneBlock : State := stateWith keyStd

/-- PT0 ‖ PT1 at SRC: two blocks. -/
def twoBlocks : State := stateWith (keyStd ++ plain1)

/-- Two blocks, the key at `a`. -/
def keyAt (a : Word) : State := { twoBlocks with kaddr := a }

/-- Two blocks, the IV at `a`. -/
def ivAt (a : Word) : State := { twoBlocks with ivaddr := a }

/-- Two blocks, the input and the output at `a`. -/
def inputAt (a : Word) : State := { twoBlocks with src := a, dst := a }

/-- Two blocks, the output at `a`. -/
def outputAt (a : Word) : State := { twoBlocks with dst := a }

/-- Two blocks, the trace at `a`. -/
def traceAt (a : Word) : State := { twoBlocks with taddr := a }

/-- Two blocks of which only the first is defined, the output 16 bytes above the input. -/
def firstBlockOnly : State := { oneBlock with len := 32#32, dst := 0x110#32 }

/-- Two blocks of which only the first is defined, the trace over the second. -/
def traceOverInput : State := { oneBlock with len := 32#32, taddr := 0x110#32, dst := 0xE00#32 }

/-- Two blocks, with bit 0 of the first byte of PT1 flipped (V18). -/
def flipped : State := { twoBlocks with mem := twoBlocks.mem.write 0x110 0x01#8 }

/-- Two blocks, with other round keys and a byte more in MEM. -/
def otherKeys : State := { twoBlocks with rkf := Vector.replicate 32 1#32, mem := twoBlocks.mem.write 0x800 0xFF#8 }

/-- A host that does SETUP next. -/
def setupNext : State :=
  { oneBlock with host := (AsmLine.setup 0x100#32 0x100#32 16#32 0#32 0#32 0x200#32).expand ++ [HostEvent.poll] }

/-- A state whose next step is the completion of the word `w`. -/
def pending (w : Word) (s : State) : State := { s with cmd := w, status := 1#32 }

/-- An idle engine whose host does `e` next. -/
def idle (e : HostEvent) : State := { oneBlock with host := [e] }

/-- A busy engine whose host does `e` next. -/
def busy (e : HostEvent) : State := { oneBlock with cmd := 1#32, status := 1#32, turns := 2, host := [e] }

/-- The state a step or a command answers, where it answers one. -/
def after : Host.Outcome State Fault Refusal → Option State
  | .next t => some t
  | .fault _ => none
  | .refused _ => none

/-- The bytes at `a` afterwards. -/
def bytesAfter (o : Host.Outcome State Fault Refusal) (a n : Nat) : Option (List Byte) :=
  (after o).bind fun t => memRead t.mem a n

/-- STATUS afterwards. -/
def statusAfter (o : Host.Outcome State Fault Refusal) : Option Word := (after o).map State.status

/-- The model-fault record afterwards. -/
def mfaultAfter (o : Host.Outcome State Fault Refusal) : Option (Option Fault) := (after o).map State.mfault

/-! ### Command words: well-formedness and decoding (V25) -/

theorem test_word_reserved_bit_refused : wordWellFormed 0x00000042#32 = false ∧ wordWellFormed 0x80000002#32 = false := by
  decide

theorem test_word_reserved_op_refused : wordWellFormed 0x00000000#32 = false ∧ wordWellFormed 0x00000004#32 = false ∧
    wordWellFormed 0x0000000F#32 = false := by decide

theorem test_word_ksched_option_refused : wordWellFormed 0x00000011#32 = false ∧ wordWellFormed 0x00000021#32 = false ∧
    wordWellFormed 0x00000031#32 = false := by decide

theorem test_word_legal_accepted : wordWellFormed 0x00000001#32 = true ∧ wordWellFormed 0x00000033#32 = true := by decide

theorem test_decode_illegal : decode 0x00000042#32 = .illegal .reservedBits ∧ decode 0x80000002#32 = .illegal .reservedBits ∧
    decode 0x00000000#32 = .illegal .reservedOp ∧ decode 0x0000000F#32 = .illegal .reservedOp ∧
    decode 0x00000031#32 = .illegal .kschedOption := by decide

/-- RSV ‖ TRC ‖ DIR ‖ OP of 30_encoding.md R80, bit 31 on the left, for each of the nine commands. -/
theorem test_decode_ksched : decode 0b00000000000000000000000000000001#32 = .command .ksched := by decide

theorem test_decode_ecb : decode 0b00000000000000000000000000000010#32 = .command .ecbEnc ∧
    decode 0b00000000000000000000000000100010#32 = .command .ecbEncT ∧
    decode 0b00000000000000000000000000010010#32 = .command .ecbDec ∧
    decode 0b00000000000000000000000000110010#32 = .command .ecbDecT := by decide

theorem test_decode_cbc : decode 0b00000000000000000000000000000011#32 = .command .cbcEnc ∧
    decode 0b00000000000000000000000000100011#32 = .command .cbcEncT ∧
    decode 0b00000000000000000000000000010011#32 = .command .cbcDec ∧
    decode 0b00000000000000000000000000110011#32 = .command .cbcDecT := by decide

theorem test_decodeTableWord : decodeTableWord 32 1 = some .ksched ∧ decodeTableWord 32 0x22 = some .ecbEncT ∧
    decodeTableWord 32 0x13 = some .cbcDec ∧ decodeTableWord 32 0x11 = none := by decide

/-- A placed word is executed by the very next step from reset. -/
theorem test_withFetchWord : step (State.reset.withFetchWord 32 0x32) = exec .ecbDecT (State.reset.withFetchWord 32 0x32) := rfl

/-! ### Primitives (V9, V10, V23) -/

theorem test_be32 : be32 0x01#8 0x23#8 0x45#8 0x67#8 = 0x01234567#32 ∧ unbe32 0x681EDF34#32 = [0x68#8, 0x1E#8, 0xDF#8, 0x34#8] := by
  decide

theorem test_bytesToWords : bytesToWords [1#8, 2#8, 3#8] = none ∧
    (Quad.ofBytes (xorBytes keyStd iv0)).map Quad.words =
      some [0x01224764#32, 0x8DAECBE8#32, 0xF6D5B093#32, 0x7A593C1F#32] := by decide +kernel

theorem test_sbox : sbox 0x00#8 = 0xD6#8 ∧ sbox 0x01#8 = 0x90#8 ∧ sbox 0x10#8 = 0x2B#8 ∧ sbox 0xEF#8 = 0x84#8 ∧
    sbox 0xFF#8 = 0x48#8 := by decide

theorem test_tau : tau 0x01234567#32 = 0x90F473A2#32 ∧ tau 0x8283CB69#32 = 0x8AD24122#32 := by decide

theorem test_rotl : rotl 0x80000000#32 2 = 0x00000002#32 ∧ rotl 0x00000001#32 23 = 0x00800000#32 := by decide

theorem test_diffusion : lin 0x00000001#32 = 0x01040405#32 ∧ lin 0x9ABCDEF0#32 = 0x886CB175#32 ∧
    linKey 0x00000001#32 = 0x00802001#32 ∧ linKey 0x9ABCDEF0#32 = 0x792F93C8#32 := by decide

theorem test_keyStart : keyStart ⟨0x01234567#32, 0x89ABCDEF#32, 0xFEDCBA98#32, 0x76543210#32⟩ =
    ⟨0xA292FFA1#32, 0xDF01FEBF#32, 0x99A12B0F#32, 0xC42410CC#32⟩ := by decide

/-- V10, all 32 round keys of KEY_STD. -/
def keysStd : List Word :=
  [0xf12186f9#32, 0x41662b61#32, 0x5a6ab19a#32, 0x7ba92077#32, 0x367360f4#32, 0x776a0c61#32, 0xb6bb89b3#32, 0x24763151#32] ++
    [0xa520307c#32, 0xb7584dbd#32, 0xc30753ed#32, 0x7ee55b57#32, 0x6988608c#32, 0x30d895b7#32, 0x44ba14af#32, 0x104495a1#32] ++
    [0xd120b428#32, 0x73b55fa3#32, 0xcc874966#32, 0x92244439#32, 0xe89e641f#32, 0x98ca015a#32, 0xc7159060#32, 0x99e1fd2e#32] ++
    [0xb79bd80c#32, 0x1d2115b0#32, 0x0e228aeb#32, 0xf1780c81#32, 0x428d3654#32, 0x62293496#32, 0x01cf72e5#32, 0x9124a012#32]

theorem test_keyExpand : (keyExpand ⟨0x01234567#32, 0x89ABCDEF#32, 0xFEDCBA98#32, 0x76543210#32⟩).toList = keysStd := by
  decide +kernel

/-- V20: MK2 and MK3 in their places. -/
theorem test_keyExpand_mk23 : ((keyExpand ⟨0x01234567#32, 0x89ABCDEF#32, 0x01234567#32, 0x89ABCDEF#32⟩).toList.getD 2 0#32) =
    0xC15C6744#32 := by decide +kernel

/-- V24, record 31 of the encryption of PT0 and record 0 of the decryption. -/
theorem test_trace_records :
    ((crypt ⟨0x01234567#32, 0x89ABCDEF#32, 0xFEDCBA98#32, 0x76543210#32⟩ keysStd).2.getD 31 ⟨0, ⟨0, 0, 0, 0⟩, 0, 0, 0, ⟨0, 0, 0, 0⟩⟩).words =
      [0x0000001f#32, 0x7b938f4c#32, 0x536e4246#32, 0x86b3e94f#32, 0xd206965e#32, 0x9124a012#32, 0x1a488c73#32, 0x138d5078#32,
        0x536e4246#32, 0x86b3e94f#32, 0xd206965e#32, 0x681edf34#32] ∧
    ((crypt ⟨0x681EDF34#32, 0xD206965E#32, 0x86B3E94F#32, 0x536E4246#32⟩ keysStd.reverse).2.getD 0
        ⟨0, ⟨0, 0, 0, 0⟩, 0, 0, 0, ⟨0, 0, 0, 0⟩⟩).words =
      [0x00000000#32, 0x681edf34#32, 0xd206965e#32, 0x86b3e94f#32, 0x536e4246#32, 0x9124a012#32, 0x1a488c73#32, 0x138d5078#32,
        0xd206965e#32, 0x86b3e94f#32, 0x536e4246#32, 0x7b938f4c#32] := by decide +kernel

/-- R157: record 1 stands 48 bytes after record 0, its first word the round index, big-endian. -/
theorem test_trace_placement :
    memRead (writeTrace [] 0x400 [⟨0, ⟨1, 2, 3, 4⟩, 5, 6, 7, ⟨2, 3, 4, 9⟩⟩, ⟨1, ⟨2, 3, 4, 9⟩, 5, 6, 7, ⟨3, 4, 9, 8⟩⟩]) 0x430 8 =
      some [0#8, 0#8, 0#8, 1#8, 0#8, 0#8, 0#8, 2#8] := by decide +kernel

/-! ### The commands, one step each -/

/-- V10: RKF and STATUS after KSCHED. -/
theorem test_ksched : (after (exec .ksched oneBlock)).map (fun t => (t.status, t.rkf.toList)) = some (0x00000002#32, keysStd) := by
  decide +kernel

/-- V26: KADDR = 0xFF1 and 0xFFFFFFFF are out of range. -/
theorem test_ksched_range : statusAfter (exec .ksched { oneBlock with kaddr := 0xFF1#32 }) = some 0x00000036#32 ∧
    statusAfter (exec .ksched { oneBlock with kaddr := 0xFFFFFFFF#32 }) = some 0x00000036#32 := by decide +kernel

/-- V1. -/
theorem test_ecbEnc_known_answer : bytesAfter (step (pending 0x00000002#32 oneBlock)) 0x300 16 = some cipher0 := by
  decide +kernel

/-- V19 with PT1 never written: DST = SRC + 16, the second block reads what the first wrote. -/
theorem test_ecbEnc_overlap : bytesAfter (exec .ecbEnc firstBlockOnly) 0x110 32 =
    some (cipher0 ++ wordsToBytes [0xf324184f#32, 0x3c8892b7#32, 0x2bdc9d7c#32, 0x612919de#32]) := by decide +kernel

/-- V26: three blocks of trace need 4608 bytes; with 48 bytes of input ECB.ENC.T is out of range. -/
theorem test_ecbEncT_range : statusAfter (exec .ecbEncT { oneBlock with len := 48#32 }) = some 0x00000036#32 := by
  decide +kernel

/-- V12. -/
theorem test_ecbDec : bytesAfter (exec .ecbDec (stateWith cipher0)) 0x300 16 = some keyStd := by decide +kernel

/-- V26: LEN = 24. -/
theorem test_ecbDec_length : statusAfter (exec .ecbDec { oneBlock with len := 24#32 }) = some 0x00000026#32 := by decide +kernel

/-- 60_exceptions.md R203: a wrong length outranks a trace region out of range. -/
theorem test_ecbDecT_length : statusAfter (exec .ecbDecT { oneBlock with len := 8#32, taddr := 0xFFF0#32 }) = some 0x00000026#32 := by
  decide +kernel

/-- V14. -/
theorem test_cbcEnc : bytesAfter (exec .cbcEnc twoBlocks) 0x300 32 =
    some (wordsToBytes [0xa9a26888#32, 0x3a336315#32, 0xbac0c9c9#32, 0xff350ab1#32, 0x27a3cee6#32, 0x59f1bc0a#32, 0x7d973dae#32,
      0xb5512e34#32]) := by decide +kernel

/-- V26: LEN = 15. -/
theorem test_cbcEnc_length : statusAfter (exec .cbcEnc { oneBlock with len := 15#32 }) = some 0x00000026#32 := by decide +kernel

/-- R202: 1536 trace bytes at 0xA01 end one byte beyond MEM. -/
theorem test_cbcEncT_range : statusAfter (exec .cbcEncT { oneBlock with taddr := 0xA01#32 }) = some 0x00000036#32 := by
  decide +kernel

/-- V15 in place: chaining from the recovered plaintext would give V17's bytes. -/
theorem test_cbcDec_in_place : bytesAfter (exec .cbcDec
    { stateWith (wordsToBytes [0xa9a26888#32, 0x3a336315#32, 0xbac0c9c9#32, 0xff350ab1#32, 0x27a3cee6#32, 0x59f1bc0a#32,
        0x7d973dae#32, 0xb5512e34#32]) with dst := 0x100#32 }) 0x100 32 = some (keyStd ++ plain1) := by decide +kernel

/-- V26: IVADDR = 0xFF8. -/
theorem test_cbcDec_range : statusAfter (exec .cbcDec { twoBlocks with ivaddr := 0xFF8#32 }) = some 0x00000036#32 := by
  decide +kernel

/-- 93: an undefined IV byte is a model fault, not a hardware error: STATUS stays. -/
theorem test_cbcDecT_undefined : mfaultAfter (exec .cbcDecT { oneBlock with ivaddr := 0x020#32 }) = some (some .undefinedRead) := by
  decide +kernel

/-- V25, V26: 0x00000042 with LEN = 0 is UNSUPPORTED_CONFIG. -/
theorem test_illegal_outranks_length : statusAfter (step (pending 0x00000042#32 { oneBlock with len := 0#32 })) = some 0x00000016#32 := by
  decide +kernel

/-- 60_exceptions.md R205, traced, the trace region ending at MEM_BYTES (0xA00 + 1536 = 4096). -/
theorem test_traced_complete : statusAfter (exec .ecbEncT { oneBlock with taddr := 0xA00#32 }) = some 0x00000002#32 ∧
    statusAfter (exec .ecbDecT oneBlock) = some 0x00000002#32 ∧ statusAfter (exec .cbcEncT oneBlock) = some 0x00000002#32 ∧
    statusAfter (exec .cbcDecT oneBlock) = some 0x00000002#32 := by decide +kernel

/-- V26: ECB ignores IVADDR, and without TRC TADDR is ignored. -/
theorem test_unused_registers_unchecked :
    statusAfter (exec .ecbEnc { twoBlocks with ivaddr := 0xFFFFFFFF#32, taddr := 0xFFFFFFFF#32 }) = some 0x00000002#32 ∧
      statusAfter (exec .ksched { oneBlock with len := 0#32, src := 0xFFFFFFFF#32 }) = some 0x00000002#32 := by decide +kernel

/-! ### The host port, reset -/

theorem test_issue : (after (step (idle (.writeReg 0x00#8 32 0x00000002#32)))).map (fun t => (t.cmd, t.status)) =
    some (0x00000002#32, 0x00000001#32) := by decide +kernel

theorem test_reserved_read : (after (step (idle (.readReg 0x20#8 32)))).map State.replies = some [.reg 0x20#8 0x00000000#32] := by
  decide +kernel

theorem test_busy_write : mfaultAfter (step (busy (.writeReg 0x08#8 32 0#32))) = some (some .hostBusyAccess) := by decide +kernel

theorem test_busy_status_read : (after (step (busy (.readReg 0x04#8 32)))).map State.replies = some [.reg 0x04#8 0x00000001#32] := by
  decide +kernel

theorem test_memory_edge : mfaultAfter (step (idle (.writeByte 0x1000 0#8))) = some (some .hostBadAccess) ∧
    mfaultAfter (step (idle (.writeByte 0xFFF 0#8))) = some none ∧
    mfaultAfter (step (idle (.readByte 0xFFF))) = some (some .undefinedRead) := by decide +kernel

theorem test_reset_event : (after (step { busy .reset with rkf := Vector.replicate 32 1#32 })).map
    (fun t => (t.status, t.mem, t.rkf.toList.getD 31 1#32)) = some (0#32, [], 0#32) := by decide +kernel

/-- A recorded model fault stops the next step. -/
theorem test_fault_stops : step { oneBlock with mfault := some .hostBadAccess } = .fault .hostBadAccess := rfl

/-- P1's first lines as host-port accesses (30_encoding.md R89, R90). -/
theorem test_assemble : assemble [.wb 0x000 [0x01#8, 0x23#8], .wr .kaddr 0#32, .command .ksched, .poll, .rdrk 31] =
    [.writeByte 0 0x01#8, .writeByte 1 0x23#8, .writeReg 0x14#8 32 0#32, .writeReg 0x00#8 32 1#32, .poll, .readReg 0xBC#8 32] := by
  decide +kernel

/-! ### Witnesses: what meets the hypotheses of each statement -/

/-- KEY_STD as a block of words. -/
def keyQuad : Quad := ⟨0x01234567#32, 0x89ABCDEF#32, 0xFEDCBA98#32, 0x76543210#32⟩

/-- Three of R88's illegal words: OP = 0, KSCHED with DIR and TRC, bit 31. -/
theorem test_witness_IllegalWordReportsUnsupportedConfig :
    ((pending 0x00000000#32 oneBlock).engineTurn ∧ (pending 0x00000031#32 oneBlock).engineTurn ∧
      (pending 0x80000002#32 oneBlock).engineTurn) ∧
    ∀ w ∈ [0x00000000#32, 0x00000031#32, 0x80000002#32], w ∉ [0x00000001#32, 0x00000002#32, 0x00000022#32, 0x00000012#32,
      0x00000032#32, 0x00000003#32, 0x00000023#32, 0x00000013#32, 0x00000033#32] := by
  refine ⟨⟨by decide, by decide, by decide⟩, by simp⟩

theorem test_witness_DecodeAndEncodeAgree : Instr.wellFormed .cbcDecT = true ∧ decode 0x00000033#32 = .command .cbcDecT := by decide

/-- The engine's turn with the host's list empty, and with host turns used up. -/
theorem test_witness_StepRunsDecodedInstruction :
    ((pending 0x00000013#32 oneBlock).engineTurn ∧ decode (pending 0x00000013#32 oneBlock).cmd = .command .cbcDec) ∧
      ({ busy .poll with turns := 0 }.engineTurn ∧ decode (busy .poll).cmd = .command .ksched) ∧
      decodeTableWord 32 0x33 = some .cbcDecT := by decide +kernel

/-- The key region ending at MEM_BYTES. -/
theorem test_witness_KschedWritesRoundKeys :
    let s := { oneBlock with kaddr := 0xFF0#32, mem := memWrite [] 0xFF0 keyStd }
    s.kaddr.toNat + 16 ≤ s.memBytes ∧ memRead s.mem s.kaddr.toNat 16 = some keyQuad.bytes := by decide +kernel

/-- The key region one byte beyond MEM, and at the top of the address range. -/
theorem test_witness_KschedRangeErrorIsPrecise : (keyAt 0xFF1#32).memBytes < (keyAt 0xFF1#32).kaddr.toNat + 16 ∧
    (keyAt 0xFFFFFFFF#32).memBytes < (keyAt 0xFFFFFFFF#32).kaddr.toNat + 16 :=
  ⟨by decide +kernel, by have : (keyAt 0xFFFFFFFF#32).memBytes = 4096 := rfl; rw [this]; simp [keyAt]⟩

theorem test_witness_KschedFrame : (∃ t, exec .ksched oneBlock = .next t) ∧
    (∃ t, exec .ksched { oneBlock with kaddr := 0xFF1#32 } = .next t ∧ t.status ≠ 0x00000002#32) ∧
    ∃ t, exec .ksched { oneBlock with kaddr := 0x800#32 } = .next t ∧
      t.mfault ≠ { oneBlock with kaddr := 0x800#32 }.mfault :=
  ⟨⟨_, rfl⟩, ⟨_, rfl, by decide +kernel⟩, ⟨_, rfl, by decide +kernel⟩⟩

theorem test_witness_ranges : (3 : Nat) < 4 ∧ (1 : Nat) ≤ 1 ∧ (31 : Nat) ≤ 31 ∧ (31 : Nat) < 32 ∧ keysStd.length = 32 ∧
    bytesToWords keyStd = some keyQuad.words := by decide +kernel

theorem test_witness_commandShape : commandShape .ecbEnc = some (.ecb, .encrypt, false) ∧
    commandShape .ecbEncT = some (.ecb, .encrypt, true) ∧ commandShape .ecbDec = some (.ecb, .decrypt, false) ∧
    commandShape .ecbDecT = some (.ecb, .decrypt, true) ∧ commandShape .cbcEnc = some (.cbc, .encrypt, false) ∧
    commandShape .cbcEncT = some (.cbc, .encrypt, true) ∧ commandShape .cbcDec = some (.cbc, .decrypt, false) ∧
    commandShape .cbcDecT = some (.cbc, .decrypt, true) := by decide

/-- Two blocks in each mode: without a trace, the output region ending at MEM_BYTES; with a trace, all regions. -/
theorem test_witness_BlockCommandsComplete :
    ((outputAt 0xFE0#32).argsOk .ecb false ∧ (outputAt 0xFE0#32).readsDefined .ecb false) ∧
    ((outputAt 0xFE0#32).argsOk .cbc false ∧ (outputAt 0xFE0#32).readsDefined .cbc false) ∧
    (twoBlocks.argsOk .ecb true ∧ twoBlocks.readsDefined .ecb true) ∧
    (twoBlocks.argsOk .cbc true ∧ twoBlocks.readsDefined .cbc true) :=
  ⟨by decide +kernel, by decide +kernel, by decide +kernel, by decide +kernel⟩

/-- In place and apart, for EcbEncryptsEachBlock and EcbDecryptsEachBlock, with the last block's number. -/
theorem test_witness_EcbEachBlock :
    ((outputAt 0x100#32).argsOk .ecb false ∧ (outputAt 0x100#32).inputsDefined .ecb ∧ (outputAt 0x100#32).separate false) ∧
    (twoBlocks.argsOk .ecb true ∧ twoBlocks.inputsDefined .ecb ∧ twoBlocks.separate true) ∧ 1 < twoBlocks.blocks := by
  decide +kernel

/-- In place and apart, for CbcEncryptChains and CbcDecryptChainsOriginal, with the first and the last block's number. -/
theorem test_witness_CbcEachBlock :
    ((outputAt 0x100#32).argsOk .cbc false ∧ (outputAt 0x100#32).inputsDefined .cbc ∧ (outputAt 0x100#32).separate false) ∧
    (twoBlocks.argsOk .cbc true ∧ twoBlocks.inputsDefined .cbc ∧ twoBlocks.separate true) ∧ 0 < twoBlocks.blocks ∧
    1 < twoBlocks.blocks := by decide +kernel

/-- TraceRecordsAreWritten, for CBC.ENC.T and for the others, with the last block and round. -/
theorem test_witness_TraceRecordsAreWritten :
    (twoBlocks.argsOk .cbc true ∧ twoBlocks.inputsDefined .cbc ∧ twoBlocks.separate true) ∧
    (twoBlocks.argsOk .ecb true ∧ twoBlocks.inputsDefined .ecb) ∧ 1 < twoBlocks.blocks ∧ 31 < 32 := by decide +kernel

/-- The output 16 bytes above the input (V19), with both blocks defined and with only block 0 defined. -/
theorem test_witness_OverlapsFollowAccessOrder :
    ((outputAt 0x110#32).argsOk .ecb true ∧ (outputAt 0x110#32).readsDefined .ecb true) ∧
    (firstBlockOnly.argsOk .cbc false ∧ firstBlockOnly.readsDefined .cbc false ∧ ¬ firstBlockOnly.inputsDefined .cbc) ∧
    (traceOverInput.argsOk .ecb true ∧ traceOverInput.readsDefined .ecb true ∧ ¬ traceOverInput.inputsDefined .ecb) :=
  ⟨by decide +kernel, by decide +kernel, by decide +kernel⟩

theorem test_witness_BlockCommandsFrame : (∃ t, exec .cbcDecT twoBlocks = .next t) ∧
    (∃ t, exec .cbcEnc { twoBlocks with len := 24#32 } = .next t ∧ t.status ≠ 0x00000002#32) ∧
    (∃ t, exec .ecbDec { twoBlocks with src := 0x800#32 } = .next t ∧ t.mfault ≠ { twoBlocks with src := 0x800#32 }.mfault) ∧
    outside 0x2FF 0x300 32 ∧ outside 0x320 0x300 32 ∧ outside 0x3FF 0x400 3072 ∧ outside 0x1000 0x400 3072 :=
  ⟨⟨_, rfl⟩, ⟨_, rfl, by decide +kernel⟩, ⟨_, rfl, by decide +kernel⟩, by decide⟩

theorem test_witness_InvalidLengthOutranksRange : { oneBlock with len := 0#32 }.len.toNat = 0 ∧
    { oneBlock with len := 15#32 }.len.toNat % 16 ≠ 0 ∧ { oneBlock with len := 24#32 }.len.toNat % 16 ≠ 0 := by decide

/-- Each region one byte beyond MEM, the others in range. -/
theorem test_witness_AddressRangeIsPrecise :
    (twoBlocks.len.toNat ≠ 0 ∧ twoBlocks.len.toNat % 16 = 0) ∧
    (keyAt 0xFF1#32).memBytes < (keyAt 0xFF1#32).kaddr.toNat + 16 ∧
    (ivAt 0xFF1#32).memBytes < (ivAt 0xFF1#32).ivaddr.toNat + 16 ∧
    (inputAt 0xFE1#32).memBytes < (inputAt 0xFE1#32).src.toNat + (inputAt 0xFE1#32).len.toNat ∧
    (outputAt 0xFE1#32).memBytes < (outputAt 0xFE1#32).dst.toNat + (outputAt 0xFE1#32).len.toNat ∧
    (traceAt 0x401#32).memBytes < (traceAt 0x401#32).taddr.toNat + 1536 * (traceAt 0x401#32).blocks := by decide +kernel

/-- An undefined key byte and an undefined input byte, each the last of its region; and a key region that the command
would write (R75: the key is read before any write). -/
theorem test_witness_UndefinedInputsAreRecorded_ecb :
    ((keyAt 0x011#32).mfault = none ∧ (keyAt 0x011#32).argsOk .ecb true ∧ ¬ (keyAt 0x011#32).readsDefined .ecb true) ∧
    ((inputAt 0x111#32).argsOk .ecb true ∧ ¬ (inputAt 0x111#32).readsDefined .ecb true) ∧
    ((keyAt 0x300#32).argsOk .ecb false ∧ ¬ (keyAt 0x300#32).readsDefined .ecb false) :=
  ⟨by decide +kernel, by decide +kernel, by decide +kernel⟩

/-- An undefined IV byte (CBC), an output 17 bytes above the input, of which the first byte of block 1 stays undefined, and
KSCHED's key. -/
theorem test_witness_UndefinedInputsAreRecorded_cbc :
    ((ivAt 0x011#32).argsOk .cbc true ∧ ¬ (ivAt 0x011#32).readsDefined .cbc true) ∧
    ({ firstBlockOnly with dst := 0x111#32 }.argsOk .cbc false ∧
      ¬ { firstBlockOnly with dst := 0x111#32 }.readsDefined .cbc false) ∧
    (keyAt 0x011#32).kaddr.toNat + 16 ≤ (keyAt 0x011#32).memBytes ∧
    ¬ (keyAt 0x011#32).mem.definedOn (keyAt 0x011#32).kaddr.toNat 16 :=
  ⟨by decide +kernel, by decide +kernel, by decide +kernel, by decide +kernel⟩

theorem test_witness_ErrorsChangeOnlyStatus : (pending 0x00000002#32 { oneBlock with len := 0#32 }).engineTurn ∧
    ∃ t, step (pending 0x00000002#32 { oneBlock with len := 0#32 }) = .next t ∧ t.busy = false ∧ t.err = true :=
  ⟨by decide +kernel, _, rfl, by decide +kernel⟩

/-- The two runs, without and with a trace. -/
theorem test_witness_InPlaceEqualsDisjoint :
    (outputAt 0x100#32).dst = (outputAt 0x100#32).src ∧ { outputAt 0x100#32 with dst := 0x300#32 } = twoBlocks ∧
    ((outputAt 0x100#32).argsOk .cbc true ∧ twoBlocks.argsOk .cbc true ∧ (outputAt 0x100#32).inputsDefined .cbc ∧
      (outputAt 0x100#32).separate true ∧ twoBlocks.separate true) ∧
    ((outputAt 0x100#32).argsOk .ecb false ∧ twoBlocks.argsOk .ecb false ∧ (outputAt 0x100#32).separate false ∧
      twoBlocks.separate false) ∧ 0x300#32 ≠ (outputAt 0x100#32).src :=
  ⟨by decide, rfl, by decide +kernel, by decide +kernel, by decide⟩

/-- V18's third row: the two runs differ in a byte of block 1 and agree on block 0 and the key. -/
theorem test_witness_EcbBlocksAreIndependent :
    (twoBlocks.argsOk .ecb true ∧ twoBlocks.inputsDefined .ecb ∧ twoBlocks.separate true ∧ 0 < twoBlocks.blocks) ∧
    (flipped.argsOk .ecb true ∧ flipped.inputsDefined .ecb ∧ flipped.separate true ∧ 0 < flipped.blocks) ∧
    memRead twoBlocks.mem twoBlocks.kaddr.toNat 16 = memRead flipped.mem flipped.kaddr.toNat 16 ∧
    memRead twoBlocks.mem (twoBlocks.src.toNat + 16 * 0) 16 = memRead flipped.mem (flipped.src.toNat + 16 * 0) 16 ∧
    twoBlocks.mem.read 0x110 ≠ flipped.mem.read 0x110 :=
  ⟨by decide +kernel, by decide +kernel, by decide +kernel, by decide +kernel, by decide +kernel⟩

/-- Two states that differ in RKF and in a byte no command reads. -/
theorem test_witness_CommandsAreDeterministic :
    (twoBlocks.sameRegisters otherKeys ∧ twoBlocks.argsOk .cbc true ∧ otherKeys.argsOk .cbc true ∧
      twoBlocks.inputsDefined .cbc) ∧
    (∀ k < 16, twoBlocks.mem.read (twoBlocks.kaddr.toNat + k) = otherKeys.mem.read (twoBlocks.kaddr.toNat + k)) ∧
    (∀ k < 16, twoBlocks.mem.read (twoBlocks.ivaddr.toNat + k) = otherKeys.mem.read (twoBlocks.ivaddr.toNat + k)) ∧
    (∀ k < twoBlocks.len.toNat, twoBlocks.mem.read (twoBlocks.src.toNat + k) = otherKeys.mem.read (twoBlocks.src.toNat + k)) ∧
    (twoBlocks.kaddr = otherKeys.kaddr ∧ twoBlocks.kaddr.toNat + 16 ≤ twoBlocks.memBytes ∧
      otherKeys.kaddr.toNat + 16 ≤ otherKeys.memBytes ∧ twoBlocks.mem.definedOn twoBlocks.kaddr.toNat 16) :=
  ⟨by decide +kernel, by decide +kernel, by decide +kernel, by decide +kernel, by decide +kernel⟩

theorem test_witness_RoundTrips :
    ((outputAt 0x100#32).argsOk .ecb false ∧ (outputAt 0x100#32).inputsDefined .ecb ∧
      (outputAt 0x100#32).argsOk .cbc false ∧ (outputAt 0x100#32).inputsDefined .cbc) ∧
    (outputAt 0x100#32).dst = (outputAt 0x100#32).src ∧
    apart (outputAt 0x100#32).kaddr.toNat 16 (outputAt 0x100#32).src.toNat (outputAt 0x100#32).len.toNat ∧
    apart (outputAt 0x100#32).ivaddr.toNat 16 (outputAt 0x100#32).src.toNat (outputAt 0x100#32).len.toNat := by decide +kernel

/-- IssueSetsBusy and ArgumentWritesTakeEffect. -/
theorem test_witness_RegisterWrites :
    (∀ off ∈ [0x00#8, 0x08#8, 0x0C#8, 0x10#8, 0x14#8, 0x18#8, 0x1C#8],
      (idle (.writeReg off 32 0xFFFFFFFF#32)).idleHost (.writeReg off 32 0xFFFFFFFF#32) []) ∧
    (busy (.writeReg 0x00#8 32 1#32)).busyHost (.writeReg 0x00#8 32 1#32) [] := by decide +kernel

/-- The first and the last offset of each range. -/
theorem test_witness_ReservedAndReadOnlyOffsets :
    (∀ off ∈ [0x20#8, 0x3C#8, 0xC0#8, 0xFC#8], (idle (.readReg off 32)).idleHost (.readReg off 32) [] ∧ off.toNat % 4 = 0 ∧
      (0x20 ≤ off.toNat ∧ off.toNat < 0x40 ∨ 0xC0 ≤ off.toNat)) ∧
    ∀ off ∈ [0x04#8, 0x20#8, 0x3C#8, 0x40#8, 0xBC#8, 0xC0#8, 0xFC#8],
      (idle (.writeReg off 32 1#32)).idleHost (.writeReg off 32 1#32) [] ∧ off.toNat % 4 = 0 ∧
        (0x20 ≤ off.toNat ∨ off.toNat = 0x04) := by decide +kernel

theorem test_witness_RegisterReadsHaveNoSideEffect :
    (∀ off ∈ [0x00#8, 0x04#8, 0x08#8, 0x0C#8, 0x10#8, 0x14#8, 0x18#8, 0x1C#8, 0x40#8, 0xBC#8],
      (idle (.readReg off 32)).idleHost (.readReg off 32) []) ∧
    (0x40#8).toNat = 0x40 + 4 * (0 : Fin 32).val ∧ (0xBC#8).toNat = 0x40 + 4 * (31 : Fin 32).val := by decide +kernel

/-- Widths other than 32, and offsets that are no multiple of 4, on an idle engine and on a busy one. -/
theorem test_witness_MalformedAccessIsRecorded :
    (∀ e ∈ [HostEvent.writeReg 0x08#8 8 0#32, .writeReg 0x08#8 64 0#32, .readReg 0x04#8 16, .readReg 0x05#8 32, .writeReg 0xFF#8 32 0#32],
      (idle e).idleHost e [] ∧ (busy e).busyHost e []) ∧ (8 ≠ 32 ∧ 64 ≠ 32 ∧ 16 ≠ 32) ∧ (0x05#8).toNat % 4 ≠ 0 ∧
      (0xFF#8).toNat % 4 ≠ 0 := by decide +kernel

/-- Every kind of access of a busy engine, with the first and the last byte of MEM and the first beyond it. -/
theorem test_witness_BusyEngineAllowsOnlyStatusReads :
    (∀ e ∈ [HostEvent.readReg 0x04#8 32, .writeReg 0x04#8 32 0#32, .writeReg 0x20#8 32 0#32, .readReg 0x00#8 32, .readReg 0xFC#8 32,
      .writeByte 0 0#8, .writeByte 0xFFF 0#8, .readByte 0xFFF, .readByte 0x1000, .writeByte 0x1000 0#8], (busy e).busyHost e []) ∧
    0xFFF < (busy .poll).memBytes ∧ (busy .poll).memBytes ≤ 0x1000 := by decide +kernel

theorem test_witness_HostMemoryPort :
    (∀ e ∈ [HostEvent.writeByte 0 1#8, .writeByte 0xFFF 1#8, .writeByte 0x1000 1#8, .readByte 0, .readByte 0xFFF, .readByte 0x1000],
      (idle e).idleHost e []) ∧ 0xFFF < oneBlock.memBytes ∧ oneBlock.memBytes ≤ 0x1000 ∧ oneBlock.mem.read 0 = some 0x01#8 ∧
      oneBlock.mem.read 0xFFF = none := by decide +kernel

theorem test_witness_PollRepeatsWhileBusy : (busy .poll).busyHost .poll [] ∧ (idle .poll).idleHost .poll [] := by decide +kernel

theorem test_witness_SetupWritesSixRegisters : setupNext.mfault = none ∧ setupNext.busy = false ∧
    setupNext.host = (AsmLine.setup 0x100#32 0x100#32 16#32 0#32 0#32 0x200#32).expand ++ [HostEvent.poll] :=
  ⟨rfl, by decide, rfl⟩

/-- Reset after a model fault, of an idle engine, and of a busy one that has host turns left. -/
theorem test_witness_PlatformResetRestoresResetState :
    ({ idle .reset with mfault := some .undefinedRead }.host = [.reset] ∧
      { idle .reset with mfault := some .undefinedRead }.mfault ≠ none) ∧
    ((idle .reset).host = [.reset] ∧ (idle .reset).busy = false) ∧ (busy .reset).host = [.reset] ∧ (busy .reset).turns ≠ 0 := by
  decide +kernel

theorem test_witness_OnlyRecordedFaultsStop :
    ({ idle .poll with mfault := some .undefinedRead }.mfault = some .undefinedRead ∧
      ∀ rest, { idle .poll with mfault := some .undefinedRead }.host ≠ .reset :: rest) ∧
    step { idle .poll with mfault := some .undefinedRead } = .fault .undefinedRead :=
  ⟨⟨rfl, fun _ h => nomatch h⟩, rfl⟩

theorem test_witness_IdleEngineHoldsState : oneBlock.finished := by decide +kernel

theorem test_witness_EngineNeverWritesArguments : (pending 0x00000003#32 twoBlocks).engineTurn ∧
    ∃ t, step (pending 0x00000003#32 twoBlocks) = .next t := ⟨by decide +kernel, _, rfl⟩

/-- A completion and a reset that change RKF. -/
theorem test_witness_RkfChangesOnlyOnSuccess :
    (∃ t, step (pending 0x00000001#32 oneBlock) = .next t ∧ t.rkf ≠ (pending 0x00000001#32 oneBlock).rkf) ∧
    ∃ t, step { idle .reset with rkf := Vector.replicate 32 1#32 } = .next t ∧ t.rkf ≠ Vector.replicate 32 1#32 :=
  ⟨⟨_, rfl, by decide +kernel⟩, _, rfl, by decide +kernel⟩

theorem test_witness_PendingCommandCompletes : (busy .poll).mfault = none ∧ (busy .poll).busy = true ∧
    ∀ e ∈ (busy .poll).host, e = .poll := by decide +kernel

theorem test_witness_InstancesAreIndependent : ∃ q, platformStep [oneBlock, idle .poll, twoBlocks] 1 = some q := ⟨_, rfl⟩

/-- A legal state with a step, for each of the three invariants: a command that completes. -/
theorem test_witness_Invariants : (pending 0x00000001#32 oneBlock).memLegal ∧ (pending 0x00000001#32 oneBlock).statusLegal ∧
    (pending 0x00000001#32 oneBlock).rkfLegal ∧ ∃ t, step (pending 0x00000001#32 oneBlock) = .next t :=
  ⟨by decide +kernel, by decide +kernel, .inl rfl, _, rfl⟩

theorem test_witness_ReachableStatusFieldsAgree : Reachable { State.resetOf 0xFFF#32 with host := [.poll] } := .start _ _

end Sys2Proof.Tests
end

section
/-! PROOF. The statements about the state: what a step can answer, the registers and the memory port as the host sees
them, and the three invariants of 10_state.md. -/

namespace Sys2Proof.Machine

/-! ### What a step can answer -/

/-- Everything a completion can do to the state: an error that shows in STATUS only (an Illegal word's too), a recorded
undefined read, or new round keys and a new MEM with STATUS = 0x00000002 (43_block_modes.md R171). -/
theorem engineStep_next_cases {s t : State} (h : engineStep s = .next t) :
    (∃ e, t = s.failWith e) ∨ t = s.recordFault .undefinedRead ∨
      ∃ key m, t = ({ s with rkf := keyExpand key, mem := m } : State).finish ∧ (s.mem.wf → m.wf) ∧
        ((∀ c ∈ s.mem, c.1 < s.memBytes) → ∀ c ∈ m, c.1 < s.memBytes) := by
  rcases engineStep_cases s with ⟨_, _, hs⟩ | ⟨i, _, hs⟩
  · exact .inl ⟨_, Host.Outcome.next.inj (h.symm.trans hs)⟩
  · exact exec_cases (hs.symm.trans h)

/-- No completion stops the machine: every command has its meaning, and errors show in STATUS (60_exceptions.md R200). -/
theorem engineStep_isNext (s : State) : ∃ t, engineStep s = .next t := by
  rcases engineStep_cases s with ⟨_, _, hs⟩ | ⟨i, _, hs⟩
  · exact ⟨_, hs⟩
  · exact ⟨_, hs.trans (exec_eq i s)⟩

/-- A step that answers a next state is a completion, an event of the host, or the idle engine holding its state. -/
theorem step_next_cases {s t : State} (h : step s = .next t) :
    (s.engineTurn ∧ engineStep s = .next t) ∨ (∃ e rest, s.host = e :: rest ∧ t = hostStep e rest s.spendTurn) ∨
      t = s := by
  rcases step_cases s with ⟨_, _, _, hs⟩ | ⟨hm, hb, ht, hs⟩ | ⟨e, rest, hh, _, hs⟩ | ⟨_, _, _, hs⟩
  · cases hs.symm.trans h
  · exact .inl ⟨⟨hm, hb, ht⟩, hs.symm.trans h⟩
  · exact .inr (.inl ⟨e, rest, hh, Host.Outcome.next.inj (h.symm.trans hs)⟩)
  · exact .inr (.inr (Host.Outcome.next.inj (h.symm.trans hs)))

/-- What the completion, every event and the counting of turns keep, every step keeps. -/
theorem step_keeps {P : State → Prop} (hengine : ∀ s t, P s → engineStep s = .next t → P t)
    (hevent : ∀ e rest s, P s → P (hostStep e rest s)) (hturn : ∀ s, P s → P s.spendTurn) {s t : State} (hs : P s)
    (h : step s = .next t) : P t := by
  rcases step_next_cases h with ⟨_, he⟩ | ⟨e, rest, _, rfl⟩ | rfl
  · exact hengine s t hs he
  · exact hevent e rest _ (hturn s hs)
  · exact hs

/-! ### What a host event does to each piece of the state -/

/-- A register write touches neither RKF nor MEM nor its size (R34). -/
@[simp] theorem writeOffset_frame (off : BitVec 8) (v : Word) (s : State) :
    (writeOffset off v s).rkf = s.rkf ∧ (writeOffset off v s).mem = s.mem ∧ (writeOffset off v s).memTop = s.memTop := by
  unfold writeOffset
  cases regOfOffset off with
  | none => exact ⟨rfl, rfl, rfl⟩
  | some r => cases r <;> exact ⟨rfl, rfl, rfl⟩

/-- A register write issues a command or leaves STATUS alone (R25, R34). -/
theorem writeOffset_status (off : BitVec 8) (v : Word) (s : State) :
    (writeOffset off v s).status = s.status ∨ (writeOffset off v s).status = statusBusy := by
  unfold writeOffset
  cases regOfOffset off with
  | none => exact .inl rfl
  | some r => cases r <;> simp [writeRegister]

/-- No event changes the size of MEM (00_scope.md R8). -/
@[simp] theorem hostStep_memTop (e : HostEvent) (rest : List HostEvent) (s : State) :
    (hostStep e rest s).memTop = s.memTop := by
  rcases hostStep_cases e rest s with ⟨_, h⟩ | ⟨_, _, _, _, h⟩ | ⟨_, _, _, _, _, h⟩ | ⟨_, _, h⟩ | ⟨_, h⟩ <;> simp [h]

/-- Only the platform's reset touches RKF among the events (10_state.md R33). -/
theorem hostStep_rkf (e : HostEvent) (rest : List HostEvent) (s : State) :
    (hostStep e rest s).rkf = s.rkf ∨ e = .reset ∧ (hostStep e rest s).rkf = Vector.replicate 32 0#32 := by
  rcases hostStep_cases e rest s with ⟨_, h⟩ | ⟨_, _, _, _, h⟩ | ⟨_, _, _, _, _, h⟩ | ⟨_, _, h⟩ | ⟨he, h⟩
  case inr.inr.inr.inr => exact .inr ⟨he, by simp [h]⟩
  all_goals exact .inl (by simp [h])

/-- An event leaves STATUS alone, issues a command or resets the engine. -/
theorem hostStep_status (e : HostEvent) (rest : List HostEvent) (s : State) :
    (hostStep e rest s).status = s.status ∨ (hostStep e rest s).status = statusBusy ∨
      (hostStep e rest s).status = 0#32 := by
  rcases hostStep_cases e rest s with ⟨_, h⟩ | ⟨off, v, _, _, h⟩ | ⟨_, _, _, _, _, h⟩ | ⟨_, _, h⟩ | ⟨_, h⟩
  case inr.inl => exact (h ▸ writeOffset_status off v { s with host := rest }).imp_right .inl
  case inr.inr.inr.inr => exact .inr (.inr (by simp [h]))
  all_goals exact .inl (by simp [h])

/-- An event leaves MEM alone, writes one byte below MEM_BYTES or makes every byte undefined (20_memory.md R65, R230). -/
theorem hostStep_mem (e : HostEvent) (rest : List HostEvent) (s : State) :
    (hostStep e rest s).mem = s.mem ∨ (∃ a v, a < s.memBytes ∧ (hostStep e rest s).mem = s.mem.write a v) ∨
      (hostStep e rest s).mem = [] := by
  rcases hostStep_cases e rest s with ⟨_, h⟩ | ⟨_, _, _, _, h⟩ | ⟨a, v, _, ha, _, h⟩ | ⟨_, _, h⟩ | ⟨_, h⟩
  case inr.inr.inl => exact .inr (.inl ⟨a, v, ha, by rw [h]⟩)
  case inr.inr.inr.inr => exact .inr (.inr (by simp [h]))
  all_goals exact .inl (by simp [h])

/-! ### MEM stays canonical and within its size -/

/-- The MEM invariant reads only MEM and its size. -/
theorem State.memLegal_congr {s t : State} (hm : t.mem = s.mem) (ht : t.memTop = s.memTop) :
    t.memLegal ↔ s.memLegal := by
  simp only [State.memLegal, hm, State.memBytes_congr ht]

/-- A completion keeps MEM canonical and within its size: the block loop writes only regions that were checked (R66). -/
theorem engineStep_keeps_memLegal (s t : State) (hs : s.memLegal) (h : engineStep s = .next t) : t.memLegal := by
  have ⟨hcanonical, hbound⟩ := hs
  rcases engineStep_next_cases h with ⟨e, rfl⟩ | rfl | ⟨key, m, rfl, hwf, hbelow⟩
  · exact hs
  · exact hs
  · exact ⟨hwf hcanonical, hbelow hbound⟩

/-- An event keeps MEM canonical and within its size: the memory port writes only below MEM_BYTES (R65). -/
theorem hostStep_keeps_memLegal (e : HostEvent) (rest : List HostEvent) (s : State) (hs : s.memLegal) :
    (hostStep e rest s).memLegal := by
  have hsize : (hostStep e rest s).memBytes = s.memBytes := State.memBytes_congr (hostStep_memTop e rest s)
  obtain ⟨hcanonical, hbound⟩ := hs
  simp only [State.memLegal, hsize]
  rcases hostStep_mem e rest s with h | ⟨a, v, ha, h⟩ | h <;> rw [h]
  · exact ⟨hcanonical, hbound⟩
  · exact ⟨Memory.write_wf a v hcanonical, memWrite_below (bs := [v]) ha hbound⟩
  · exact ⟨List.Pairwise.nil, by simp⟩

/-- Settles O57: each of the three kinds of step keeps MEM canonical and within its size. -/
theorem stepKeepsMemoryLegal : Obligations.StepKeepsMemoryLegal := fun _ _ =>
  step_keeps engineStep_keeps_memLegal hostStep_keeps_memLegal fun _ =>
    (State.memLegal_congr (State.spendTurn_mem _) (State.spendTurn_memTop _)).2

/-! ### STATUS stays one of six values -/

/-- Every error a command can end with gives a legal STATUS (60_exceptions.md R201, R204). -/
theorem State.failWith_statusLegal (e : ErrorCode) (s : State) : (s.failWith e).statusLegal := by
  cases e <;> simp [State.statusLegal]

/-- A completion ends in a legal STATUS, or records a model fault and leaves it. -/
theorem engineStep_keeps_statusLegal (s t : State) (hs : s.statusLegal) (h : engineStep s = .next t) :
    t.statusLegal := by
  rcases engineStep_next_cases h with ⟨e, rfl⟩ | rfl | ⟨key, m, rfl, _, _⟩
  · exact State.failWith_statusLegal e s
  · exact hs
  · exact .inr (.inr (.inl rfl))

/-- An event keeps STATUS legal: it can only issue a command or reset the engine. -/
theorem hostStep_keeps_statusLegal (e : HostEvent) (rest : List HostEvent) (s : State) (hs : s.statusLegal) :
    (hostStep e rest s).statusLegal := by
  rcases hostStep_status e rest s with h | h | h
  · simpa only [State.statusLegal, h] using hs
  · exact .inr (.inl h)
  · exact .inl h

/-- Settles O58: a completion ends in DONE or in one of three errors, an event issues or resets. -/
theorem stepKeepsStatusLegal : Obligations.StepKeepsStatusLegal := fun _ _ =>
  step_keeps engineStep_keeps_statusLegal hostStep_keeps_statusLegal fun _ hs => by
    simpa only [State.statusLegal, State.spendTurn_status] using hs

/-! ### RKF stays zero or the round keys of one key -/

/-- A completion leaves RKF or replaces it by the round keys of one key (R129, R173). -/
theorem engineStep_keeps_rkfLegal (s t : State) (hs : s.rkfLegal) (h : engineStep s = .next t) : t.rkfLegal := by
  rcases engineStep_next_cases h with ⟨e, rfl⟩ | rfl | ⟨key, m, rfl, _, _⟩
  · exact hs
  · exact hs
  · exact .inr ⟨key, rfl⟩

/-- An event leaves RKF or clears it (R230). -/
theorem hostStep_keeps_rkfLegal (e : HostEvent) (rest : List HostEvent) (s : State) (hs : s.rkfLegal) :
    (hostStep e rest s).rkfLegal := by
  rcases hostStep_rkf e rest s with h | ⟨_, h⟩
  · simpa only [State.rkfLegal, h] using hs
  · exact .inl h

/-- Settles O59: RKF is written whole, by a key expansion or by a reset. -/
theorem stepKeepsRoundKeysLegal : Obligations.StepKeepsRoundKeysLegal := fun _ _ =>
  step_keeps engineStep_keeps_rkfLegal hostStep_keeps_rkfLegal fun _ hs => by
    simpa only [State.rkfLegal, State.spendTurn_rkf] using hs

/-! ### Reset and the reachable states -/

/-- The reset state meets the three invariants, whatever events the host has pending: none of them reads that list. -/
theorem resetOf_invariants (top : Word) (events : List HostEvent) :
    ({ State.resetOf top with host := events } : State).memLegal ∧
      ({ State.resetOf top with host := events } : State).statusLegal ∧
      ({ State.resetOf top with host := events } : State).rkfLegal :=
  ⟨⟨List.Pairwise.nil, fun _ hc => by cases hc⟩, .inl rfl, .inl rfl⟩

/-- Settles O56: MEM is empty, STATUS and RKF are zero. -/
theorem invariantsHoldAtReset : Obligations.InvariantsHoldAtReset :=
  ⟨fun top => resetOf_invariants top [], resetOf_invariants Config.memTop []⟩

/-- Settles O48: the values of R39, read off the reset state. -/
theorem resetValues : Obligations.ResetValues := by
  intro top
  refine ⟨⟨rfl, rfl, rfl, rfl, rfl, rfl, rfl, rfl⟩, fun i => ?_, fun _ => rfl, rfl, ?_, rfl⟩
  · exact Vector.getElem_replicate i.isLt
  · simp [State.busy, State.resetOf]

/-- The invariants hold in every reachable state: they hold at the start and every step keeps them. -/
theorem Reachable.invariants {s : State} (h : Reachable s) : s.memLegal ∧ s.statusLegal ∧ s.rkfLegal := by
  induction h with
  | start top events => exact resetOf_invariants top events
  | next s t _ hstep ih =>
    obtain ⟨hmem, hstatus, hrkf⟩ := ih
    exact ⟨stepKeepsMemoryLegal s t hmem hstep, stepKeepsStatusLegal s t hstatus hstep,
      stepKeepsRoundKeysLegal s t hrkf hstep⟩

/-- The fields of a legal STATUS agree (10_state.md R26): each of the six values has them as the rule says. -/
theorem State.statusLegal_fields {s : State} (h : s.statusLegal) :
    ¬ (s.busy = true ∧ s.done = true) ∧ (s.err = true → s.done = true) ∧ (s.err = true ↔ s.errCode ≠ 0#4) := by
  rcases h with h | h | h | h | h | h <;> simp [State.busy, State.done, State.err, State.errCode, h]

/-- Settles O60: by induction on the run for the invariants, and by the six values of STATUS for its fields. -/
theorem reachableStatusFieldsAgree : Obligations.ReachableStatusFieldsAgree := by
  intro s h
  obtain ⟨hmem, hstatus, hrkf⟩ := h.invariants
  exact ⟨hmem, hstatus, hrkf, State.statusLegal_fields hstatus⟩

/-! ### What stops a step, and what a step leaves alone -/

/-- A step stops for a recorded model fault or answers a next state (60_exceptions.md R207). -/
theorem step_fault_or_next (s : State) : (∃ r, s.mfault = some r ∧ step s = .fault r) ∨ ∃ t, step s = .next t := by
  rcases step_cases s with ⟨r, hm, _, hs⟩ | ⟨_, _, _, hs⟩ | ⟨_, _, _, _, hs⟩ | ⟨_, _, _, hs⟩
  · exact .inl ⟨r, hm, hs⟩
  · obtain ⟨t, ht⟩ := engineStep_isNext s
    exact .inr ⟨t, hs.trans ht⟩
  · exact .inr ⟨_, hs⟩
  · exact .inr ⟨_, hs⟩

/-- A recorded model fault stops the step unless the platform resets the engine next (log 6). -/
theorem step_of_recorded_fault {s : State} {r : Fault} (hm : s.mfault = some r) (hr : ∀ rest, s.host ≠ .reset :: rest) :
    step s = .fault r := by
  rcases step_cases s with ⟨q, hq, _, hs⟩ | ⟨hn, _⟩ | ⟨e, rest, hh, ⟨hn, _⟩ | ⟨he, _⟩, _⟩ | ⟨hn, _⟩
  · rw [hs, Option.some.inj (hq.symm.trans hm)]
  · cases hn.symm.trans hm
  · cases hn.symm.trans hm
  · exact absurd (he ▸ hh) (hr rest)
  · cases hn.symm.trans hm

/-- Settles O50: a step stops only for what is recorded, and what is recorded stops it. -/
theorem onlyRecordedFaultsStop : Obligations.OnlyRecordedFaultsStop := by
  refine ⟨fun _ _ => step_of_recorded_fault, fun s r h => ?_, fun s r h => ?_⟩
  · rcases step_fault_or_next s with ⟨q, hm, hs⟩ | ⟨_, hs⟩
    · rw [hm, Host.Outcome.fault.inj (hs.symm.trans h)]
    · cases hs.symm.trans h
  · rcases step_fault_or_next s with ⟨_, _, hs⟩ | ⟨_, hs⟩ <;> cases hs.symm.trans h

/-- A completion changes neither CMD nor an argument register, nor the size of MEM, nor what the model keeps of the
host. -/
theorem engineStep_frame {s t : State} (h : engineStep s = .next t) : s.sameRegisters t ∧ s.sameSurroundings t := by
  rcases engineStep_next_cases h with ⟨e, rfl⟩ | rfl | ⟨key, m, rfl, _, _⟩ <;>
    exact ⟨⟨rfl, rfl, rfl, rfl, rfl, rfl, rfl⟩, rfl, rfl, rfl, rfl, rfl⟩

/-- No step changes the size of MEM (00_scope.md R8). -/
theorem step_memTop {s t : State} (h : step s = .next t) : t.memTop = s.memTop := by
  rcases step_next_cases h with ⟨_, he⟩ | ⟨e, rest, _, rfl⟩ | rfl
  · obtain ⟨_, htop, _⟩ := engineStep_frame he
    exact htop
  · simp
  · rfl

/-- Settles O52: a completion writes only STATUS, RKF, MEM and the record of a model fault. -/
theorem engineNeverWritesArguments : Obligations.EngineNeverWritesArguments := by
  refine ⟨fun s t ⟨hm, hb, ht⟩ h => ?_, fun s t h => ⟨step_memTop h, State.memBytes_congr (step_memTop h)⟩⟩
  exact engineStep_frame ((step_engine hm hb ht).symm.trans h)

/-- Settles O53: RKF is written only by a body that runs to its end and by the platform's reset. -/
theorem rkfChangesOnlyOnSuccess : Obligations.RkfChangesOnlyOnSuccess := by
  intro s t h hne
  rcases step_next_cases h with ⟨hturn, he⟩ | ⟨e, rest, hh, rfl⟩ | rfl
  · rcases engineStep_next_cases he with ⟨e, rfl⟩ | rfl | ⟨key, m, rfl, _, _⟩
    · exact absurd rfl hne
    · exact absurd rfl hne
    · exact .inl ⟨hturn, rfl, key, rfl⟩
  · rcases hostStep_rkf e rest s.spendTurn with hr | ⟨rfl, hr⟩
    · exact absurd (hr.trans s.spendTurn_rkf) hne
    · exact .inr ⟨rest, hh, hr⟩
  · exact absurd rfl hne

/-! ### The register window of an idle engine -/

/-- A register access of 32 bits at a multiple of 4 is well formed, and no other is (10_state.md R35). -/
theorem regAccessOk_iff {off : BitVec 8} {bits : Nat} :
    regAccessOk off bits = true ↔ bits = 32 ∧ off.toNat % 4 = 0 := by
  simp [regAccessOk]

/-- A well-formed read of an idle engine replies and does nothing else (20_memory.md R70). -/
theorem step_readReg_idle {s : State} {off : BitVec 8} {rest : List HostEvent} (h : s.idleHost (.readReg off 32) rest)
    (hoff : off.toNat % 4 = 0) :
    step s = .next { s with host := rest, replies := s.replies ++ [.reg off (s.readOffset off)] } := by
  obtain ⟨hm, hb, hh⟩ := h
  have hidle : ({ s with host := rest } : State).busy = false := hb
  rw [step_host_idle hm hb hh]
  simp only [hostStep, hostReadReg, regAccessOk_iff.2 ⟨rfl, hoff⟩, hidle]
  rfl

/-- A well-formed write of an idle engine is the write of that offset. -/
theorem step_writeReg_idle {s : State} {off : BitVec 8} {v : Word} {rest : List HostEvent}
    (h : s.idleHost (.writeReg off 32 v) rest) (hoff : off.toNat % 4 = 0) :
    step s = .next (writeOffset off v { s with host := rest }) := by
  obtain ⟨hm, hb, hh⟩ := h
  have hidle : ({ s with host := rest } : State).busy = false := hb
  rw [step_host_idle hm hb hh]
  simp only [hostStep, hostWriteReg, regAccessOk_iff.2 ⟨rfl, hoff⟩, hidle]
  rfl

/-- No register stands at the reserved offsets (R34). -/
theorem regOfOffset_reserved {off : BitVec 8} (h : 0x20 ≤ off.toNat ∧ off.toNat < 0x40 ∨ 0xC0 ≤ off.toNat) :
    regOfOffset off = none := by
  unfold regOfOffset
  repeat rw [if_neg (by omega)]
  rw [dif_neg (by omega)]

/-- From 0x20 on a register is a round key, which is read-only (R33, R34). -/
theorem regOfOffset_of_ge {off : BitVec 8} (h : 0x20 ≤ off.toNat) :
    regOfOffset off = none ∨ ∃ i, regOfOffset off = some (.rk i) := by
  by_cases hr : 0x20 ≤ off.toNat ∧ off.toNat < 0x40 ∨ 0xC0 ≤ off.toNat
  · exact .inl (regOfOffset_reserved hr)
  · right
    unfold regOfOffset
    repeat rw [if_neg (by omega)]
    rw [dif_pos (by omega)]
    exact ⟨_, rfl⟩

/-- A write at a reserved or a read-only offset is ignored (R34). -/
theorem writeOffset_ignored {off : BitVec 8} (h : 0x20 ≤ off.toNat ∨ off.toNat = 0x04) (v : Word) (s : State) :
    writeOffset off v s = s := by
  rcases h with h | h
  · rcases regOfOffset_of_ge h with hr | ⟨i, hr⟩ <;> simp only [writeOffset, hr, writeRegister]
  · rw [show off = RegName.status.offset from BitVec.eq_of_toNat_eq h, writeOffset_offset, writeRegister]

/-- Settles O41: the register map has nothing at the reserved offsets, and STATUS and RK take no write. -/
theorem reservedAndReadOnlyOffsets : Obligations.ReservedAndReadOnlyOffsets := by
  refine ⟨fun s off rest h hoff hres => ?_, fun s off v rest h hoff hro => ?_⟩
  · rw [step_readReg_idle h hoff, State.readOffset, regOfOffset_reserved hres]
  · rw [step_writeReg_idle h hoff, writeOffset_ignored hro]

/-- Every register's offset is a multiple of 4 (R24). -/
theorem RegName.offset_aligned (r : RegName) : r.offset.toNat % 4 = 0 := (regAccessOk_iff.1 (regAccessOk_offset r)).2

/-- A read at a register's offset gives the register. -/
theorem step_readReg_offset {s : State} {r : RegName} {rest : List HostEvent}
    (h : s.idleHost (.readReg r.offset 32) rest) :
    step s = .next { s with host := rest, replies := s.replies ++ [.reg r.offset (s.reg r)] } := by
  rw [step_readReg_idle h r.offset_aligned, readOffset_offset]

/-- A write at a register's offset writes the register. -/
theorem step_writeReg_offset {s : State} {r : RegName} {v : Word} {rest : List HostEvent}
    (h : s.idleHost (.writeReg r.offset 32 v) rest) :
    step s = .next (writeRegister r v { s with host := rest }) := by
  rw [step_writeReg_idle h r.offset_aligned, writeOffset_offset]

/-- The offset of a round key, as a number. -/
theorem RegName.rk_offset_toNat (i : Fin 32) : (RegName.rk i).offset.toNat = 0x40 + 4 * i.val := by
  simp only [RegName.offset, BitVec.toNat_ofNat]
  omega

/-- Settles O42: each listed offset is a register's own, and a read replies with that register. -/
theorem registerReadsHaveNoSideEffect : Obligations.RegisterReadsHaveNoSideEffect := by
  intro s off rest h v hv
  rcases hv with ⟨rfl, rfl⟩ | ⟨rfl, rfl⟩ | ⟨rfl, rfl⟩ | ⟨rfl, rfl⟩ | ⟨rfl, rfl⟩ | ⟨rfl, rfl⟩ | ⟨rfl, rfl⟩ | ⟨rfl, rfl⟩ |
    ⟨i, hoff, rfl⟩
  · exact step_readReg_offset (r := .cmd) h
  · exact step_readReg_offset (r := .status) h
  · exact step_readReg_offset (r := .src) h
  · exact step_readReg_offset (r := .dst) h
  · exact step_readReg_offset (r := .len) h
  · exact step_readReg_offset (r := .kaddr) h
  · exact step_readReg_offset (r := .ivaddr) h
  · exact step_readReg_offset (r := .taddr) h
  · obtain rfl : off = (RegName.rk i).offset := BitVec.eq_of_toNat_eq (hoff.trans (RegName.rk_offset_toNat i).symm)
    exact step_readReg_offset h

/-- Settles O40: each of the six offsets is an argument register's own, which takes the value. -/
theorem argumentWritesTakeEffect : Obligations.ArgumentWritesTakeEffect := by
  intro s off v rest h
  refine ⟨?_, ?_, ?_, ?_, ?_, ?_⟩ <;> rintro rfl
  · exact step_writeReg_offset (r := .src) h
  · exact step_writeReg_offset (r := .dst) h
  · exact step_writeReg_offset (r := .len) h
  · exact step_writeReg_offset (r := .kaddr) h
  · exact step_writeReg_offset (r := .ivaddr) h
  · exact step_writeReg_offset (r := .taddr) h

/-- An access of another width or misaligned is not well formed. -/
theorem regAccessOk_of_malformed {off : BitVec 8} {bits : Nat} (h : bits ≠ 32 ∨ off.toNat % 4 ≠ 0) :
    regAccessOk off bits = false := by
  rw [← Bool.not_eq_true, regAccessOk_iff]
  omega

/-- An idle engine's event that only records a model fault answers a state with that fault recorded. -/
theorem step_records_of_idleHost {s : State} {e : HostEvent} {rest : List HostEvent} {r : Fault}
    (h : s.idleHost e rest) (he : hostStep e rest s = ({ s with host := rest } : State).recordFault r) :
    ∃ t, step s = .next t ∧ t.mfault = some r := by
  obtain ⟨hm, hb, hh⟩ := h
  exact ⟨_, (step_host_idle hm hb hh).trans (congrArg _ he), State.recordFault_mfault_of_none hm⟩

/-- Settles O43: the width and the alignment are checked before anything else. -/
theorem malformedAccessIsRecorded : Obligations.MalformedAccessIsRecorded := by
  intro s off bits v rest e he h hbad
  refine step_records_of_idleHost h ?_
  rcases he with rfl | rfl
  · simp [hostStep, hostWriteReg, regAccessOk_of_malformed hbad]
  · simp [hostStep, hostReadReg, regAccessOk_of_malformed hbad]

/-! ### The memory port of an idle engine (20_memory.md R65) -/

/-- An access beyond MEM records HOST_BAD_ACCESS, a write's or a read's. -/
theorem hostStep_beyond_memory {s : State} {a : Nat} {e : HostEvent} (he : (∃ v, e = .writeByte a v) ∨ e = .readByte a)
    (ha : s.memBytes ≤ a) (rest : List HostEvent) :
    hostStep e rest s = ({ s with host := rest } : State).recordFault .hostBadAccess := by
  have ha' : ({ s with host := rest } : State).memBytes ≤ a := ha
  rcases he with ⟨v, rfl⟩ | rfl
  · simp only [hostStep, hostWriteByte, if_pos ha']
  · simp only [hostStep, hostReadByte, if_pos ha']

/-- A byte write below MEM_BYTES writes the byte. -/
theorem hostStep_writeByte {s : State} {a : Nat} (ha : a < s.memBytes) (hb : s.busy = false) (v : Byte)
    (rest : List HostEvent) :
    hostStep (.writeByte a v) rest s = { s with host := rest, mem := s.mem.write a v } := by
  have hin : ¬ ({ s with host := rest } : State).memBytes ≤ a := Nat.not_le_of_lt ha
  have hidle : ({ s with host := rest } : State).busy = false := hb
  simp [hostStep, hostWriteByte, hin, hidle]

/-- A read of a defined byte replies with it. -/
theorem hostStep_readByte_defined {s : State} {a : Nat} {v : Byte} (ha : a < s.memBytes) (hb : s.busy = false)
    (hv : s.mem.read a = some v) (rest : List HostEvent) :
    hostStep (.readByte a) rest s = ({ s with host := rest } : State).reply (.byte a v) := by
  have hin : ¬ ({ s with host := rest } : State).memBytes ≤ a := Nat.not_le_of_lt ha
  have hidle : ({ s with host := rest } : State).busy = false := hb
  simp [hostStep, hostReadByte, hin, hidle, hv]

/-- A read of an undefined byte records it (R207). -/
theorem hostStep_readByte_undefined {s : State} {a : Nat} (ha : a < s.memBytes) (hb : s.busy = false)
    (hv : s.mem.read a = none) (rest : List HostEvent) :
    hostStep (.readByte a) rest s = ({ s with host := rest } : State).recordFault .undefinedRead := by
  have hin : ¬ ({ s with host := rest } : State).memBytes ≤ a := Nat.not_le_of_lt ha
  have hidle : ({ s with host := rest } : State).busy = false := hb
  simp [hostStep, hostReadByte, hin, hidle, hv]

/-- Settles O45: what the port does below MEM_BYTES, at a defined and at an undefined byte, and beyond. -/
theorem hostMemoryPort : Obligations.HostMemoryPort := by
  constructor
  · intro s a v rest h
    have ⟨hm, hb, hh⟩ := h
    refine ⟨fun ha => ?_, fun ha => ?_⟩
    · exact ⟨s.mem.write a v, (step_host_idle hm hb hh).trans (congrArg _ (hostStep_writeByte ha hb v rest)),
        Memory.read_write_same .., fun b hne => Memory.read_write_of_ne _ v hne⟩
    · exact step_records_of_idleHost h (hostStep_beyond_memory (.inl ⟨v, rfl⟩) ha rest)
  · intro s a rest h
    have ⟨hm, hb, hh⟩ := h
    refine ⟨fun v ha hv => ?_, fun ha hv => ?_, fun ha => ?_⟩
    · exact (step_host_idle hm hb hh).trans (congrArg _ (hostStep_readByte_defined ha hb hv rest))
    · exact step_records_of_idleHost h (hostStep_readByte_undefined ha hb hv rest)
    · exact step_records_of_idleHost h (hostStep_beyond_memory (.inr rfl) ha rest)

end Sys2Proof.Machine
end

section
/-! PROOF. The statements about memory: what a command answers that would read an undefined byte (20_memory.md R74,
60_exceptions.md R207). -/

namespace Sys2Proof.Machine

/-- An ECB or CBC command word runs the block command of its shape. -/
theorem exec_of_shape {i : Instr} {mode : Mode} {dir : Dir} {traced : Bool}
    (h : commandShape i = some (mode, dir, traced)) (s : State) :
    exec i s = .next (blockCommand mode dir traced s) := by
  rw [exec_eq, h]

/-- A completion whose checks pass and whose body does not run to its end records UNDEFINED_READ and changes nothing
else, when no fault is recorded yet (log 1). -/
theorem completeWith_of_unreadable {check : Option ErrorCode} {body : State → Option State} {s : State}
    (hm : s.mfault = none) (hc : check = none) (hb : ¬ (body s).isSome = true) :
    completeWith check body s = { s with mfault := some .undefinedRead } := by
  rcases completeWith_cases check body s with ⟨e, he, _⟩ | ⟨_, _, hs⟩ | ⟨t, _, ht, _⟩
  · cases hc.symm.trans he
  · rw [hs, State.recordFault_of_none hm]
  · exact absurd (Option.isSome_of_eq_some ht) hb

/-- KSCHED's body runs to its end exactly when every byte of the key is defined (R129). -/
theorem kschedBody_isSome_iff {s : State} :
    (kschedBody s).isSome = true ↔ s.mem.definedOn s.kaddr.toNat 16 := by
  rw [← loadBlock_isSome_iff, Option.isSome_iff_exists, Option.isSome_iff_exists]
  simp [kschedBody_eq_some_iff]

/-- Settles O32: with good arguments the checks pass, and the body runs to its end exactly when every byte it reads is
defined when it reads it. -/
theorem undefinedInputsAreRecorded : Obligations.UndefinedInputsAreRecorded := by
  refine ⟨fun i mode dir traced s hi hm hargs hreads => ?_, fun s hm hrange hkey => ?_⟩
  · have hc : checkBlocks mode traced s = none := checkBlocks_eq_none_iff.2 hargs
    rw [exec_of_shape hi, blockCommand,
      completeWith_of_unreadable hm hc (mt (blockBody_isSome_iff hc).1 hreads)]
  · exact congrArg _ (completeWith_of_unreadable hm (checkKsched_eq_none_iff.2 hrange)
      (mt kschedBody_isSome_iff.1 hkey))

end Sys2Proof.Machine
end

section
/-! PROOF. The statements about command words and the host assembly (30_encoding.md R80–R91), and the completion of
every ECB and CBC command on good arguments and inputs. -/

namespace Sys2Proof.Machine

/-! ### The fields of a command word (R80) -/

/-- The bits of a packed word: OP in [3:0], DIR in [4], TRC in [5]. -/
theorem packWord_getLsbD (op : BitVec 4) (dir trc : Bool) (i : Nat) :
    (packWord op dir trc).getLsbD i =
      if i < 4 then op.getLsbD i else if i = 4 then dir else if i = 5 then trc else false := by
  change (0#26 ++ BitVec.ofBool trc ++ BitVec.ofBool dir ++ op : BitVec (26 + 1 + 1 + 4)).getLsbD i = _
  simp only [BitVec.getLsbD_append, BitVec.getLsbD_ofBool, BitVec.getLsbD_zero]
  grind

/-- A word with RSV = 0 is packed from its other fields. -/
theorem eq_packWord_of_fieldRsv {w : Word} (h : fieldRsv w = 0#26) :
    w = packWord (fieldOp w) (fieldDir w) (fieldTrc w) := by
  have hrsv : ∀ k < 26, w.getLsbD (6 + k) = false := fun k hk => by
    simpa [fieldRsv, hk] using congrArg (BitVec.getLsbD · k) h
  apply BitVec.eq_of_getLsbD_eq
  intro i hi
  rw [packWord_getLsbD]
  rcases (by omega : i < 4 ∨ i = 4 ∨ i = 5 ∨ 6 ≤ i) with hop | rfl | rfl | h6
  · simp [fieldOp, hop]
  · rfl
  · rfl
  · obtain ⟨k, rfl⟩ := Nat.exists_eq_add_of_le h6
    rw [hrsv k (by omega), if_neg (by omega), if_neg (by omega), if_neg (by omega)]

/-- The encoder packs the fields of an ECB command (R81–R83). -/
theorem encode_ecbOf (dir trc : Bool) : encode (ecbOf dir trc) = packWord 2#4 dir trc := by
  cases dir <;> cases trc <;> rfl

/-- The encoder packs the fields of a CBC command (R81–R83). -/
theorem encode_cbcOf (dir trc : Bool) : encode (cbcOf dir trc) = packWord 3#4 dir trc := by
  cases dir <;> cases trc <;> rfl

/-- Everything a word that decodes to a command can be, by its fields (R86). -/
theorem decode_eq_command_iff_fields {w : Word} {i : Instr} :
    decode w = .command i ↔ fieldRsv w = 0#26 ∧
      (fieldOp w = 1#4 ∧ (fieldDir w = false ∧ fieldTrc w = false) ∧ i = .ksched ∨
        fieldOp w = 2#4 ∧ i = ecbOf (fieldDir w) (fieldTrc w) ∨
        fieldOp w = 3#4 ∧ i = cbcOf (fieldDir w) (fieldTrc w)) := by
  unfold decode
  split
  next hr => simp [hr]
  next hr =>
    have hr : fieldRsv w = 0#26 := not_not.1 hr
    split
    next h1 => cases hd : fieldDir w <;> cases ht : fieldTrc w <;> simp [hr, h1, eq_comm (a := i)]
    next h1 =>
      split
      next h2 => simp [hr, h2, eq_comm (a := i)]
      next h2 =>
        split
        next h3 => simp [hr, h3, eq_comm (a := i)]
        next h3 => simp [h1, h2, h3]

/-! ### Decode and encode (R86, R87) -/

/-- What the encoding statement says of each command holds of all nine. -/
theorem encodingStatement : ∀ i : Instr, Laws.Encoding.Statement i
  | .ksched => Laws.Encoding.ksched
  | .ecbEnc => Laws.Encoding.ecbEnc
  | .ecbEncT => Laws.Encoding.ecbEncT
  | .ecbDec => Laws.Encoding.ecbDec
  | .ecbDecT => Laws.Encoding.ecbDecT
  | .cbcEnc => Laws.Encoding.cbcEnc
  | .cbcEncT => Laws.Encoding.cbcEncT
  | .cbcDec => Laws.Encoding.cbcDec
  | .cbcDecT => Laws.Encoding.cbcDecT

/-- The decoder reads each command from its own word. -/
@[simp] theorem decode_encode (i : Instr) : decode (encode i) = .command i := (encodingStatement i).2.1

/-- The decoder reads a command from its own word and from no other: the three branches that give one fix every field of
the word. -/
theorem decode_eq_command_iff {w : Word} {i : Instr} : decode w = .command i ↔ w = encode i := by
  constructor
  · intro h
    obtain ⟨hrsv, hop⟩ := decode_eq_command_iff_fields.1 h
    have hw := eq_packWord_of_fieldRsv hrsv
    rcases hop with ⟨h1, ⟨hd, ht⟩, rfl⟩ | ⟨h2, rfl⟩ | ⟨h3, rfl⟩
    · rwa [h1, hd, ht] at hw
    · rwa [h2, ← encode_ecbOf] at hw
    · rwa [h3, ← encode_cbcOf] at hw
  · rintro rfl
    exact decode_encode i

/-- Settles O1: a word that decodes has RSV = 0, so its remaining fields, which name the command, determine it. -/
theorem decodeAndEncodeAgree : Obligations.DecodeAndEncodeAgree :=
  ⟨fun i _ => decode_encode i, fun _ _ => decode_eq_command_iff.1⟩

/-- The words of R87's table, in its order. -/
def listedWords : List Word := [0x00000001#32, 0x00000002#32, 0x00000022#32, 0x00000012#32, 0x00000032#32,
  0x00000003#32, 0x00000023#32, 0x00000013#32, 0x00000033#32]

/-- Every command's word is in the table. -/
theorem encode_mem_listedWords (i : Instr) : encode i ∈ listedWords := by
  cases i <;> decide

/-- A word outside R87's table is Illegal (R88). -/
theorem decode_illegal_of_not_listed {w : Word} (h : w ∉ listedWords) : ∃ why, decode w = .illegal why := by
  cases hd : decode w with
  | illegal why => exact ⟨why, rfl⟩
  | command i => exact absurd (decode_eq_command_iff.1 hd ▸ encode_mem_listedWords i) h

/-- Settles O2: each listed word is the encoding of its command, and a word that decodes is an encoding. -/
theorem exactlyNineLegalWords : Obligations.ExactlyNineLegalWords :=
  ⟨⟨decode_encode .ksched, decode_encode .ecbEnc, decode_encode .ecbEncT, decode_encode .ecbDec,
    decode_encode .ecbDecT, decode_encode .cbcEnc, decode_encode .cbcEncT, decode_encode .cbcDec,
    decode_encode .cbcDecT⟩, fun _ => decode_illegal_of_not_listed⟩

/-- Settles O4: each of the three words is the encoding of its command. -/
theorem sampleWordsDecode : Obligations.SampleWordsDecode :=
  ⟨decode_encode .ksched, decode_encode .ecbEncT, decode_encode .cbcDec⟩

/-- Settles O5: the word is outside the table, so the completion is that of an Illegal word. -/
theorem illegalWordReportsUnsupportedConfig : Obligations.IllegalWordReportsUnsupportedConfig := by
  intro s ⟨hm, hb, ht⟩ hw
  obtain ⟨why, hd⟩ := decode_illegal_of_not_listed hw
  rw [step_engine hm hb ht, engineStep_of_illegal hd, State.failWith, statusError_unsupportedConfig]

/-! ### The checks of R81–R84 on the word as a number -/

/-- RSV as a number. -/
theorem fieldRsv_toNat (w : Word) : (fieldRsv w).toNat = w.toNat / 64 := by
  have := w.isLt
  simp only [fieldRsv, BitVec.extractLsb'_toNat, Nat.shiftRight_eq_div_pow]
  omega

/-- OP as a number. -/
theorem fieldOp_toNat (w : Word) : (fieldOp w).toNat = w.toNat % 16 := by
  simp [fieldOp, BitVec.extractLsb'_toNat]

/-- RSV = 0 is the check of R84. -/
theorem fieldRsv_eq_zero_iff {w : Word} : fieldRsv w = 0#26 ↔ w.toNat / 64 = 0 := by
  rw [← BitVec.toNat_inj, fieldRsv_toNat]
  rfl

/-- A value of OP is a remainder of the word by 16. -/
theorem fieldOp_eq_iff {w : Word} {n : Nat} (hn : n < 16) : fieldOp w = BitVec.ofNat 4 n ↔ w.toNat % 16 = n := by
  rw [← BitVec.toNat_inj, fieldOp_toNat, BitVec.toNat_ofNat, Nat.mod_eq_of_lt hn]

/-- DIR and TRC both 0 is the check of R82 and R83. -/
theorem fieldDir_fieldTrc_clear_iff {w : Word} :
    fieldDir w = false ∧ fieldTrc w = false ↔ w.toNat / 16 % 4 = 0 := by
  simp only [fieldDir, fieldTrc, BitVec.getLsbD, Nat.testBit_eq_decide_div_mod_eq, decide_eq_false_iff_not]
  omega

/-- The field checks, as a proposition. -/
theorem wordWellFormed_iff {w : Word} :
    wordWellFormed w = true ↔ w.toNat / 64 = 0 ∧ (1 ≤ w.toNat % 16 ∧ w.toNat % 16 ≤ 3) ∧
      (w.toNat % 16 = 1 → w.toNat / 16 % 4 = 0) := by
  simp [wordWellFormed, wordReservedClear, wordOpKnown, wordKschedPlain, and_assoc, imp_iff_not_or]

/-- Settles O3: the fields that decode to a command, each read as a number, are the ones the checks ask for. -/
theorem decodeFollowsFieldChecks : Obligations.DecodeFollowsFieldChecks := by
  intro w
  simp only [decode_eq_command_iff_fields, exists_and_left, exists_or, exists_eq, and_true]
  rw [wordWellFormed_iff, fieldRsv_eq_zero_iff, fieldDir_fieldTrc_clear_iff, fieldOp_eq_iff (n := 1) (by decide),
    fieldOp_eq_iff (n := 2) (by decide), fieldOp_eq_iff (n := 3) (by decide)]
  omega

/-! ### Host assembly (R89, R90) -/

/-- A turn of POLL replies with STATUS; it stays the next event while BUSY is 1. -/
theorem hostPoll_eq (rest : List HostEvent) (s : State) :
    hostPoll rest s = { s with
      host := if s.busy then .poll :: rest else rest
      replies := s.replies ++ [.reg 0x04#8 s.status] } := by
  unfold hostPoll
  split <;> rfl

/-- Settles O46: the host's turn is one turn of POLL, counted down where the engine is busy. -/
theorem pollRepeatsWhileBusy : Obligations.PollRepeatsWhileBusy := by
  refine ⟨fun s rest ⟨hm, hb, ht, hh⟩ => ?_, fun s rest ⟨hm, hb, hh⟩ => ?_⟩
  · have hbusy : ({ s with turns := s.turns - 1 } : State).busy = true := hb
    rw [step_host_busy hm hb ht hh, hostStep, hostPoll_eq, if_pos hbusy, ← hh]
  · rw [step_host_idle hm hb hh, hostStep, hostPoll_eq, if_neg (by simp [hb])]

/-- A run on an idle engine whose host writes a register next goes on after that write. -/
theorem run_writeEvent {s : State} {r : RegName} {v : Word} {rest : List HostEvent} (n : Nat)
    (h : s.idleHost (writeEvent r v) rest) :
    Host.Core.run core (n + 1) s = Host.Core.run core n (writeRegister r v { s with host := rest }) :=
  run_succ n (step_writeReg_offset h)

/-- Settles O47: six writes, each of which leaves the engine idle for the next. -/
theorem setupWritesSixRegisters : Obligations.SetupWritesSixRegisters := by
  intro s src dst len kaddr ivaddr taddr rest hm hb hh
  refine Eq.trans (run_writeEvent (r := .src) 5 ⟨hm, hb, hh⟩) ?_
  refine Eq.trans (run_writeEvent (r := .dst) 4 ⟨hm, hb, rfl⟩) ?_
  refine Eq.trans (run_writeEvent (r := .len) 3 ⟨hm, hb, rfl⟩) ?_
  refine Eq.trans (run_writeEvent (r := .kaddr) 2 ⟨hm, hb, rfl⟩) ?_
  refine Eq.trans (run_writeEvent (r := .ivaddr) 1 ⟨hm, hb, rfl⟩) ?_
  exact run_writeEvent (r := .taddr) 0 ⟨hm, hb, rfl⟩

/-! ### The completion of an ECB or CBC command (43_block_modes.md R173–R175) -/

/-- Which bytes are defined after the loop: those that were, and those one of its blocks writes (R174). -/
theorem runBlocks_read_isSome_iff {j : BlockJob} {n b a : Nat} {cv : Quad} {m m' : Memory} (hk : j.rks.length = 32)
    (h : runBlocks j n b cv m = some m') :
    (m'.read a).isSome = true ↔ (m.read a).isSome = true ∨ ∃ c < n, j.Writes (b + c) a := by
  induction n generalizing b cv m with
  | zero =>
    obtain rfl : m = m' := Option.some.inj h
    simp
  | succ n ih =>
    cases hx : loadBlock m (j.src + 16 * b) with
    | none => simp [runBlocks, hx] at h
    | some x =>
      rw [runBlocks_succ hx] at h
      rw [ih h, blockWrites_read_isSome_iff hk, or_assoc, Nat.exists_lt_succ_left]
      simp only [Nat.add_zero, Nat.add_assoc, Nat.add_comm 1]

/-- After the loop the output region of its blocks is defined. -/
theorem runBlocks_output_defined {j : BlockJob} {n : Nat} {cv : Quad} {m m' : Memory} (hk : j.rks.length = 32)
    (h : runBlocks j n 0 cv m = some m') : m'.definedOn j.dst (16 * n) := fun k hkn =>
  (runBlocks_read_isSome_iff hk h).2 (.inr ⟨k / 16, by omega, .inl (by omega)⟩)

/-- After the loop of a traced command the trace region of its blocks is defined (R175). -/
theorem runBlocks_trace_defined {j : BlockJob} {n : Nat} {cv : Quad} {m m' : Memory} (hk : j.rks.length = 32)
    (ht : j.traced = true) (h : runBlocks j n 0 cv m = some m') : m'.definedOn j.taddr (1536 * n) := fun k hkn =>
  (runBlocks_read_isSome_iff hk h).2 (.inr ⟨k / 1536, by lia, .inr ⟨ht, by lia, by lia⟩⟩)

/-- LEN is 16 bytes for each block where it is a multiple of 16 (10_state.md R29). -/
theorem State.len_eq_blocks {s : State} (h : s.len.toNat % 16 = 0) : s.len.toNat = 16 * s.blocks := by
  unfold State.blocks
  omega

/-- With good arguments and every byte it reads defined when read, an ECB or CBC command ends without error, with the
round keys of its key in RKF and the memory its block loop leaves. -/
theorem blockCommand_completes {mode : Mode} {dir : Dir} {traced : Bool} {s : State} (hargs : s.argsOk mode traced)
    (hreads : s.readsDefined mode traced) :
    ∃ key cv m, loadBlock s.mem s.kaddr.toNat = some key ∧ firstChain mode s = some cv ∧
      runBlocks (jobOf mode dir traced (keyExpand key) s) s.blocks 0 cv s.mem = some m ∧
      blockCommand mode dir traced s = ({ s with rkf := keyExpand key, mem := m } : State).finish := by
  have hc : checkBlocks mode traced s = none := checkBlocks_eq_none_iff.2 hargs
  obtain ⟨t, ht⟩ := Option.isSome_iff_exists.1 ((blockBody_isSome_iff (dir := dir) hc).2 hreads)
  obtain ⟨key, cv, m, hkey, hcv, hrun, rfl⟩ := blockBody_eq_some_iff.1 ht
  exact ⟨key, cv, m, hkey, hcv, hrun, by simp only [blockCommand, completeWith, hc, ht]⟩

/-- Settles O22: the command completes, and the laws of the block loop say what it defines and what it leaves alone. -/
theorem blockCommandsComplete : Obligations.BlockCommandsComplete := by
  intro i mode dir traced s hi hargs hreads
  obtain ⟨key, cv, m, hkey, _, hrun, hdone⟩ := blockCommand_completes (dir := dir) hargs hreads
  have hk := jobOf_rks_length mode dir traced (keyExpand key) s
  have hlen : s.len.toNat = 16 * s.blocks := by
    obtain ⟨⟨_, hmul⟩, _⟩ := hargs
    exact State.len_eq_blocks hmul
  have houtside : s.sameMemoryOutside { s with rkf := keyExpand key, mem := m } traced := by
    intro a hd ht
    rw [hlen] at hd
    exact runBlocks_read_outside hk hrun (by simpa [jobOf] using hd) (by simpa [jobOf] using ht)
  refine ⟨_, key, (exec_of_shape hi s).trans (congrArg _ hdone), loadBlock_eq_some_iff.1 hkey, rfl, rfl, rfl,
    ⟨rfl, rfl, rfl, rfl, rfl, rfl, rfl⟩, ⟨rfl, rfl, rfl, rfl, rfl⟩, houtside, ?_, fun ht => ?_⟩
  · rw [hlen]
    exact runBlocks_output_defined hk hrun
  · exact runBlocks_trace_defined hk ht hrun

end Sys2Proof.Machine
end

section
/-! PROOF. The statements about the byte codec (40_byte_codec.md): packing is defined on multiples of 4 and loses
nothing, and it commutes with the exclusive-or of blocks. -/

namespace Sys2Proof.Machine

/-! ### Packing and unpacking -/

/-- Unpacking a packed word gives its four bytes (R100, R101). -/
@[simp] theorem unbe32_be32 (b0 b1 b2 b3 : Byte) : unbe32 (be32 b0 b1 b2 b3) = [b0, b1, b2, b3] := by
  simp [unbe32, wordByte_be32]

/-- Packing takes four bytes at a time: it is defined where the rest packs (R102). -/
theorem bytesToWords_cons_eq_some_iff {b0 b1 b2 b3 : Byte} {bs : List Byte} {ws : List Word} :
    bytesToWords (b0 :: b1 :: b2 :: b3 :: bs) = some ws ↔
      ∃ vs, bytesToWords bs = some vs ∧ ws = be32 b0 b1 b2 b3 :: vs := by
  cases h : bytesToWords bs <;> simp [bytesToWords, h, eq_comm]

/-- What packing gives unpacks to the bytes it came from (R103). -/
theorem wordsToBytes_of_bytesToWords {bs : List Byte} {ws : List Word} (h : bytesToWords bs = some ws) :
    wordsToBytes ws = bs := by
  induction bs using bytesToWords.induct generalizing ws with
  | case1 =>
    obtain rfl : [] = ws := Option.some.inj h
    rfl
  | case2 b0 b1 b2 b3 bs _ ih | case3 b0 b1 b2 b3 bs _ _ ih =>
    obtain ⟨vs, hvs, rfl⟩ := bytesToWords_cons_eq_some_iff.1 h
    rw [wordsToBytes, ih hvs, unbe32_be32]
    rfl
  | case4 bs hnil hcons =>
    rw [bytesToWords.eq_3 bs hnil hcons] at h
    cases h

/-- Every byte string whose length is a multiple of 4 packs (R102). -/
theorem exists_bytesToWords_of_length {n : Nat} {bs : List Byte} (h : bs.length = 4 * n) :
    ∃ ws, bytesToWords bs = some ws := by
  induction n generalizing bs with
  | zero => exact ⟨[], by rw [List.length_eq_zero_iff.1 h]; rfl⟩
  | succ n ih =>
    match bs, h with
    | b0 :: b1 :: b2 :: b3 :: bs, h =>
      obtain ⟨vs, hvs⟩ := ih (bs := bs) (by simp only [List.length_cons] at h; omega)
      exact ⟨_, bytesToWords_cons_eq_some_iff.2 ⟨vs, hvs, rfl⟩⟩

/-- Packing is defined exactly on lengths that are multiples of 4 (R102). -/
theorem bytesToWords_isSome_iff {bs : List Byte} : (bytesToWords bs).isSome = true ↔ bs.length % 4 = 0 := by
  rw [Option.isSome_iff_exists]
  constructor
  · rintro ⟨ws, h⟩
    rw [← wordsToBytes_of_bytesToWords h, wordsToBytes_length]
    omega
  · intro h
    exact exists_bytesToWords_of_length (n := bs.length / 4) (by omega)

/-- The four bytes of word `j` stand at 4j .. 4j+3 (R103). -/
theorem wordsToBytes_getD {ws : List Word} {j k : Nat} (hj : j < ws.length) (hk : k < 4) :
    (wordsToBytes ws).getD (4 * j + k) 0#8 = wordByte (ws.getD j 0#32) k := by
  induction ws generalizing j with
  | nil => cases hj
  | cons w ws ih =>
    cases j with
    | zero => interval_cases k <;> rfl
    | succ j =>
      rw [wordsToBytes, List.getD_append_right _ _ _ _ (by rw [unbe32_length]; omega), unbe32_length,
        show 4 * (j + 1) + k - 4 = 4 * j + k by omega, List.getD_cons_succ]
      exact ih (Nat.lt_of_succ_lt_succ hj)

/-- Word `j` is BE32 of the bytes at 4j .. 4j+3 (R102). -/
theorem getD_eq_be32_wordsToBytes {ws : List Word} {j : Nat} (hj : j < ws.length) :
    ws.getD j 0#32 = be32 ((wordsToBytes ws).getD (4 * j) 0#8) ((wordsToBytes ws).getD (4 * j + 1) 0#8)
      ((wordsToBytes ws).getD (4 * j + 2) 0#8) ((wordsToBytes ws).getD (4 * j + 3) 0#8) := by
  have h0 := wordsToBytes_getD (k := 0) hj (by decide)
  rw [Nat.add_zero] at h0
  rw [h0, wordsToBytes_getD hj (by decide), wordsToBytes_getD hj (by decide), wordsToBytes_getD hj (by decide),
    be32_wordByte]

/-- Settles O15: what packs is what words unpack to, so count and words are read off the unpacked bytes. -/
theorem wordPackingIsFaithful : Obligations.WordPackingIsFaithful := by
  refine fun bs => ⟨bytesToWords_isSome_iff, fun ws h => ?_⟩
  obtain rfl := wordsToBytes_of_bytesToWords h
  exact ⟨rfl, (wordsToBytes_length ws).symm, fun j hj => getD_eq_be32_wordsToBytes hj⟩

/-! ### Exclusive-or -/

/-- Unpacking commutes with the exclusive-or of word sequences (R106). -/
theorem wordsToBytes_zipWith_xor (vs ws : List Word) :
    wordsToBytes (List.zipWith (· ^^^ ·) vs ws) = xorBytes (wordsToBytes vs) (wordsToBytes ws) := by
  induction vs generalizing ws with
  | nil => rfl
  | cons v vs ih =>
    cases ws with
    | nil => rfl
    | cons w ws => simpa [wordsToBytes, unbe32, xorBytes, wordByte_xor] using ih ws

/-- Settles O16: a block's exclusive-or is that of its four words, and unpacking commutes with it. -/
theorem blockXorIsBytewise : Obligations.BlockXorIsBytewise :=
  fun a b => wordsToBytes_zipWith_xor a.words b.words

end Sys2Proof.Machine
end

section
/-! PROOF. The statements about the key schedule (41_key_schedule.md R120–R128): its tables, its primitives and the
recurrence of the round keys. -/

namespace Sys2Proof.Machine

/-! ### The tables (R120, R127; values: log 7) -/

/-- Where an entry of the S-box table stands in it. -/
def sboxIndex (y : Byte) : Byte := BitVec.ofNat 8 ((sboxRowsLow ++ sboxRowsHigh).flatten.idxOf y)

/-- Each entry of the S-box table stands first at its own place, so no entry is listed twice (R121). -/
theorem sboxIndex_sbox : Function.LeftInverse sboxIndex sbox := by
  unfold Function.LeftInverse
  decide +kernel

/-- Settles O11: an entry tells its place, so the S-box is injective, and on 256 values then surjective. -/
theorem sboxIsPermutation : Obligations.SboxIsPermutation :=
  ⟨fun _ _ h => sboxIndex_sbox.injective h, Finite.surjective_of_injective sboxIndex_sbox.injective⟩

/-- Settles O12: the formula evaluated for the 128 bytes of the table. -/
theorem roundConstantFormula : Obligations.RoundConstantFormula := by
  unfold Obligations.RoundConstantFormula
  decide +kernel

/-! ### The primitives (R122, R123) -/

/-- Settles O13: τ packs four S-box entries, and each byte of a packed word is the byte put there. -/
theorem tauActsOnEachByteLane : Obligations.TauActsOnEachByteLane := by
  intro x k hk
  obtain ⟨h0, h1, h2, h3⟩ := wordByte_be32 (sbox (wordByte x 0)) (sbox (wordByte x 1)) (sbox (wordByte x 2))
    (sbox (wordByte x 3))
  match k, hk with
  | 0, _ => exact h0
  | 1, _ => exact h1
  | 2, _ => exact h2
  | 3, _ => exact h3

/-- Settles O14: below the count a bit comes from the right shift, from the count on it comes from the left shift. -/
theorem rotlMovesEachBit : Obligations.RotlMovesEachBit := by
  intro x n j hn1 hn31 hj
  rw [rotl, BitVec.getLsbD_or, BitVec.getLsbD_shiftLeft, BitVec.getLsbD_ushiftRight]
  by_cases hjn : j < n
  · rw [show (j + 32 - n) % 32 = 32 - n + j by omega]
    simp [hjn]
  · rw [show (j + 32 - n) % 32 = j - n by omega, BitVec.getLsbD_of_ge x (32 - n + j) (by omega)]
    simp [hjn, hj]

/-! ### The recurrence (R128) -/

/-- The sequence K of R128: the four words of the rolling register, then every new key of the rounds. -/
def keyWords (cks : List Word) (k : Quad) : List Word := k.words ++ keyRounds cks k

/-- The round of constant `i` makes word i + 4 of the four words before it. -/
theorem keyWords_getD_add_four {cks : List Word} {k : Quad} {i : Nat} (hi : i < cks.length) :
    (keyWords cks k).getD (i + 4) 0#32 =
      keyRound ⟨(keyWords cks k).getD i 0#32, (keyWords cks k).getD (i + 1) 0#32, (keyWords cks k).getD (i + 2) 0#32,
        (keyWords cks k).getD (i + 3) 0#32⟩ (cks.getD i 0#32) := by
  induction cks generalizing k i with
  | nil => cases hi
  | cons ck cks ih =>
    have hshift : keyWords (ck :: cks) k = k.x0 :: keyWords cks ⟨k.x1, k.x2, k.x3, keyRound k ck⟩ := rfl
    cases i with
    | zero => rfl
    | succ i => simpa only [hshift, List.getD_cons_succ] using ih (Nat.lt_of_succ_lt_succ hi)

/-- Round key `i` is word i + 4 of the sequence. -/
theorem keyExpand_getElem (key : Quad) (i : Fin 32) :
    (keyExpand key)[i.val] = (keyWords ckTable (keyStart key)).getD (i.val + 4) 0#32 := by
  have hi : i.val < (keyRounds ckTable (keyStart key)).length := by simp [keyRounds_length, ckTable]
  exact (List.getD_eq_getElem _ 0#32 hi).symm

/-- Settles O10: K is the rolling register's words and then the round keys; the recurrence is one round of it. -/
theorem keyExpandRecurrence : Obligations.KeyExpandRecurrence := by
  intro key
  refine ⟨fun i => (keyWords ckTable (keyStart key)).getD i 0#32, ⟨rfl, rfl, rfl, rfl⟩, fun i => ⟨_, rfl, ?_, ?_⟩⟩
  · exact keyWords_getD_add_four i.isLt
  · exact keyExpand_getElem key i

end Sys2Proof.Machine
end

section
/-! PROOF. The statements about KSCHED (41_key_schedule.md R129), and what the results of a command depend on
(43_block_modes.md R184). -/

namespace Sys2Proof.Machine

/-! ### The completion of KSCHED -/

/-- A failed check ends a command with its error (60_exceptions.md R204). -/
theorem completeWith_of_check {check : Option ErrorCode} {e : ErrorCode} (hc : check = some e)
    (body : State → Option State) (s : State) : completeWith check body s = s.failWith e := by
  rw [hc, completeWith]

/-- With its checks passed, a command whose body runs to its end finishes (60_exceptions.md R205). -/
theorem completeWith_of_body {check : Option ErrorCode} {body : State → Option State} {s t : State}
    (hc : check = none) (hb : body s = some t) : completeWith check body s = t.finish := by
  simp only [completeWith, hc, hb]

/-- With the key region in range and its block readable, KSCHED ends with the round keys of that block in RKF. -/
theorem exec_ksched_of_key {s : State} {key : Quad} (hrange : s.kaddr.toNat + 16 ≤ s.memBytes)
    (hkey : loadBlock s.mem s.kaddr.toNat = some key) :
    exec .ksched s = .next ({ s with rkf := keyExpand key } : State).finish :=
  congrArg _ (completeWith_of_body (checkKsched_eq_none_iff.2 hrange) (kschedBody_eq_some_iff.2 ⟨key, hkey, rfl⟩))

/-- Everything KSCHED can do: an error that shows in STATUS only, a recorded undefined read, or new round keys with
STATUS = 0x00000002. -/
theorem exec_ksched_cases {s t : State} (h : exec .ksched s = .next t) :
    (∃ e, t = s.failWith e) ∨ t = s.recordFault .undefinedRead ∨
      ∃ key, t = ({ s with rkf := keyExpand key } : State).finish := by
  obtain rfl : completeWith (checkKsched s) kschedBody s = t := Host.Outcome.next.inj h
  rcases completeWith_cases (checkKsched s) kschedBody s with ⟨e, _, hs⟩ | ⟨_, _, hs⟩ | ⟨u, _, hb, hs⟩
  · exact .inl ⟨e, hs⟩
  · exact .inr (.inl hs)
  · obtain ⟨key, _, rfl⟩ := kschedBody_eq_some_iff.1 hb
    exact .inr (.inr ⟨key, hs⟩)

/-- Settles O7: the sixteen bytes read are the block the key schedule expands. -/
theorem kschedWritesRoundKeys : Obligations.KschedWritesRoundKeys :=
  fun _ _ hrange hkey => exec_ksched_of_key hrange (loadBlock_eq_some_iff.2 hkey)

/-- Settles O8: out of range is KSCHED's one failed check. -/
theorem kschedRangeErrorIsPrecise : Obligations.KschedRangeErrorIsPrecise := by
  intro s hrange
  have hc : checkKsched s = some .addressRange := checkKsched_eq_some_iff.2 ⟨rfl, hrange⟩
  exact congrArg _ ((completeWith_of_check hc kschedBody s).trans (by rw [State.failWith, statusError_addressRange]))

/-- A fault record that changes was empty, and takes the new reason (10_state.md R38). -/
theorem State.recordFault_mfault_of_ne {r : Fault} {s : State} (h : (s.recordFault r).mfault ≠ s.mfault) :
    (s.recordFault r).mfault = some r := by
  cases hm : s.mfault with
  | none => exact State.recordFault_mfault_of_none hm
  | some q => exact absurd ((State.recordFault_mfault_of_some hm).trans hm.symm) h

/-- Settles O9: none of the three endings of KSCHED touches MEM, an argument or the host; RKF changes in the one that
sets STATUS to 0x00000002, the fault record in the one that records an undefined read (log 1). -/
theorem kschedFrame : Obligations.KschedFrame := by
  intro s t h
  rcases exec_ksched_cases h with ⟨e, rfl⟩ | rfl | ⟨key, rfl⟩
  · exact ⟨⟨rfl, rfl, rfl, rfl, rfl, rfl, rfl⟩, ⟨rfl, rfl, rfl, rfl, rfl⟩, fun _ => rfl, rfl,
      fun _ => rfl, fun hm => absurd rfl hm⟩
  · exact ⟨⟨rfl, rfl, rfl, rfl, rfl, rfl, rfl⟩, ⟨rfl, rfl, rfl, rfl, rfl⟩, fun _ => rfl, rfl, fun _ => rfl,
      fun hm => ⟨State.recordFault_mfault_of_ne hm, rfl, rfl⟩⟩
  · exact ⟨⟨rfl, rfl, rfl, rfl, rfl, rfl, rfl⟩, ⟨rfl, rfl, rfl, rfl, rfl⟩, fun _ => rfl, rfl,
      fun hs => absurd rfl hs, fun hm => absurd rfl hm⟩

/-! ### What the same writes leave in two memories -/

/-- After the same write two memories agree where they agreed before, and on the bytes written. -/
theorem memWrite_read_congr {m₁ m₂ : Memory} {a b : Nat} {bs : List Byte}
    (h : m₁.read b = m₂.read b ∨ a ≤ b ∧ b < a + bs.length) :
    (memWrite m₁ a bs).read b = (memWrite m₂ a bs).read b := by
  by_cases hin : a ≤ b ∧ b < a + bs.length
  · obtain ⟨k, rfl⟩ : ∃ k, b = a + k := ⟨b - a, by omega⟩
    have hk : k < bs.length := by omega
    rw [memWrite_read_inside hk, memWrite_read_inside hk]
  · rw [memWrite_read_outside (by omega), memWrite_read_outside (by omega)]
    exact h.resolve_right hin

/-- After the same trace write two memories agree where they agreed before, and on the records (R157). -/
theorem writeTrace_read_congr {m₁ m₂ : Memory} {a b : Nat} {rs : List TraceRecord}
    (h : m₁.read b = m₂.read b ∨ a ≤ b ∧ b < a + 48 * rs.length) :
    (writeTrace m₁ a rs).read b = (writeTrace m₂ a rs).read b := by
  induction rs generalizing m₁ m₂ a with
  | nil => exact h.resolve_right fun ⟨hlow, hhigh⟩ => Nat.not_le.2 hhigh hlow
  | cons r rs ih =>
    simp only [writeTrace, storeBytes]
    refine ih ?_
    by_cases hrest : a + 48 ≤ b ∧ b < a + 48 + 48 * rs.length
    · exact .inr hrest
    · refine .inl (memWrite_read_congr (h.imp_right fun hb => ?_))
      rw [List.length_cons] at hb
      rw [TraceRecord.bytes_length]
      omega

/-- After the same block's writes two memories agree where they agreed before, and on what the block writes (R174). -/
theorem blockWrites_read_congr {j : BlockJob} {b a : Nat} {cv x : Quad} {m₁ m₂ : Memory} (hk : j.rks.length = 32)
    (h : m₁.read a = m₂.read a ∨ j.Writes b a) :
    (blockWrites j b cv x m₁).read a = (blockWrites j b cv x m₂).read a := by
  simp only [blockWrites_eq, storeBlock, storeBytes]
  by_cases hout : j.dst + 16 * b ≤ a ∧ a < j.dst + 16 * b + 16
  · exact memWrite_read_congr (.inr (by rwa [Quad.bytes_length]))
  · refine memWrite_read_congr (.inl ?_)
    have h := h.imp_right (Or.resolve_left · hout)
    cases ht : j.traced with
    | false => simpa [ht] using h
    | true =>
      rw [if_pos rfl, if_pos rfl]
      refine writeTrace_read_congr (h.imp_right fun ⟨_, hlow, hhigh⟩ => ?_)
      rw [crypt_records_length, hk, traceBytes]
      omega

/-- The loop over inputs that agree leaves the same byte wherever the two memories agreed before or a block writes,
whatever overlap the regions have (R174). -/
theorem runBlocks_read_congr {j : BlockJob} {n b a : Nat} {cv : Quad} {m₁ m₂ m₁' m₂' : Memory} (hk : j.rks.length = 32)
    (hsrc : ∀ k < 16 * n, m₁.read (j.src + 16 * b + k) = m₂.read (j.src + 16 * b + k))
    (h₁ : runBlocks j n b cv m₁ = some m₁') (h₂ : runBlocks j n b cv m₂ = some m₂')
    (h : m₁.read a = m₂.read a ∨ ∃ c < n, j.Writes (b + c) a) : m₁'.read a = m₂'.read a := by
  induction n generalizing b cv m₁ m₂ with
  | zero =>
    obtain rfl : m₁ = m₁' := Option.some.inj h₁
    obtain rfl : m₂ = m₂' := Option.some.inj h₂
    exact h.resolve_right (by simp)
  | succ n ih =>
    have hload : loadBlock m₁ (j.src + 16 * b) = loadBlock m₂ (j.src + 16 * b) :=
      loadBlock_congr fun k hk16 => hsrc k (by omega)
    cases hx : loadBlock m₁ (j.src + 16 * b) with
    | none => simp [runBlocks, hx] at h₁
    | some x =>
      rw [runBlocks_succ hx] at h₁
      rw [runBlocks_succ (hload ▸ hx)] at h₂
      refine ih (fun k hkn => blockWrites_read_congr hk (.inl ?_)) h₁ h₂ ?_
      · have := hsrc (16 + k) (by omega)
        rwa [show j.src + 16 * b + (16 + k) = j.src + 16 * (b + 1) + k by omega] at this
      · rcases h with h | ⟨c, hc, hw⟩
        · exact .inl (blockWrites_read_congr hk (.inl h))
        · cases c with
          | zero => exact .inl (blockWrites_read_congr hk (.inr hw))
          | succ c => exact .inr ⟨c, by omega, by rwa [show b + 1 + c = b + (c + 1) by omega]⟩

/-! ### Determinism (R184) -/

/-- A region defined in one memory is defined in another that agrees with it there. -/
theorem Memory.definedOn_congr {m₁ m₂ : Memory} {a n : Nat} (h : ∀ k < n, m₁.read (a + k) = m₂.read (a + k))
    (hd : m₁.definedOn a n) : m₂.definedOn a n := fun k hk => h k hk ▸ hd k hk

/-- Two states have the same registers and the same bytes in every region an ECB or CBC command reads (R184). -/
structure State.SameInputs (mode : Mode) (s₁ s₂ : State) : Prop where
  registers : s₁.sameRegisters s₂
  key : ∀ k < 16, s₁.mem.read (s₁.kaddr.toNat + k) = s₂.mem.read (s₁.kaddr.toNat + k)
  iv : mode = .cbc → ∀ k < 16, s₁.mem.read (s₁.ivaddr.toNat + k) = s₂.mem.read (s₁.ivaddr.toNat + k)
  src : ∀ k < s₁.len.toNat, s₁.mem.read (s₁.src.toNat + k) = s₂.mem.read (s₁.src.toNat + k)

/-- The inputs of one run are defined where those of the other are. -/
theorem State.SameInputs.inputsDefined {mode : Mode} {s₁ s₂ : State} (h : s₁.SameInputs mode s₂)
    (hd : s₁.inputsDefined mode) : s₂.inputsDefined mode := by
  obtain ⟨hkey, hiv, hsrc⟩ := hd
  obtain ⟨_, hsrcEq, _, hlenEq, hkaddrEq, hivaddrEq, _⟩ := h.registers
  rw [State.inputsDefined, hkaddrEq, hivaddrEq, hsrcEq, hlenEq]
  exact ⟨Memory.definedOn_congr h.key hkey, fun hm => Memory.definedOn_congr (h.iv hm) (hiv hm),
    Memory.definedOn_congr h.src hsrc⟩

/-- Both runs load the same key. -/
theorem State.SameInputs.loadKey_eq {mode : Mode} {s₁ s₂ : State} (h : s₁.SameInputs mode s₂) :
    loadBlock s₁.mem s₁.kaddr.toNat = loadBlock s₂.mem s₂.kaddr.toNat := by
  obtain ⟨_, _, _, _, hkaddrEq, _⟩ := h.registers
  rw [hkaddrEq]
  exact loadBlock_congr h.key

/-- Both runs start from the same chain value; that of an ECB command reads nothing. -/
theorem State.SameInputs.firstChain_eq {mode : Mode} {s₁ s₂ : State} (h : s₁.SameInputs mode s₂) :
    firstChain mode s₁ = firstChain mode s₂ := by
  obtain ⟨_, _, _, _, _, hivaddrEq, _⟩ := h.registers
  cases mode with
  | ecb => rfl
  | cbc =>
    rw [firstChain, firstChain, hivaddrEq]
    exact loadBlock_congr (h.iv rfl)

/-- Both runs have the same job. -/
theorem State.SameInputs.jobOf_eq {mode : Mode} {s₁ s₂ : State} (h : s₁.SameInputs mode s₂) (dir : Dir) (traced : Bool)
    (rk : Vector Word 32) : jobOf mode dir traced rk s₂ = jobOf mode dir traced rk s₁ := by
  obtain ⟨_, hsrcEq, hdstEq, _, _, _, htaddrEq⟩ := h.registers
  simp only [jobOf, hsrcEq, hdstEq, htaddrEq]

/-- Both runs complete, with the round keys of one key, after one job from one chain value, each over its own memory. -/
theorem State.SameInputs.blockCommand_completes {mode : Mode} {dir : Dir} {traced : Bool} {s₁ s₂ : State}
    (h : s₁.SameInputs mode s₂) (hargs₁ : s₁.argsOk mode traced) (hargs₂ : s₂.argsOk mode traced)
    (hd : s₁.inputsDefined mode) :
    ∃ key cv m₁ m₂, runBlocks (jobOf mode dir traced (keyExpand key) s₁) s₁.blocks 0 cv s₁.mem = some m₁ ∧
      runBlocks (jobOf mode dir traced (keyExpand key) s₁) s₁.blocks 0 cv s₂.mem = some m₂ ∧
      blockCommand mode dir traced s₁ = ({ s₁ with rkf := keyExpand key, mem := m₁ } : State).finish ∧
      blockCommand mode dir traced s₂ = ({ s₂ with rkf := keyExpand key, mem := m₂ } : State).finish := by
  obtain ⟨key, cv, m₁, hkey₁, hcv₁, hrun₁, hdone₁⟩ :=
    Machine.blockCommand_completes (dir := dir) hargs₁ (State.readsDefined_of_inputsDefined traced hd)
  obtain ⟨key₂, cv₂, m₂, hkey₂, hcv₂, hrun₂, hdone₂⟩ :=
    Machine.blockCommand_completes (dir := dir) hargs₂ (State.readsDefined_of_inputsDefined traced (h.inputsDefined hd))
  obtain rfl : key = key₂ := Option.some.inj (hkey₁.symm.trans (h.loadKey_eq.trans hkey₂))
  obtain rfl : cv = cv₂ := Option.some.inj (hcv₁.symm.trans (h.firstChain_eq.trans hcv₂))
  have hblocks : s₂.blocks = s₁.blocks := by
    obtain ⟨_, _, _, hlenEq, _⟩ := h.registers
    rw [State.blocks, State.blocks, hlenEq]
  rw [h.jobOf_eq, hblocks] at hrun₂
  exact ⟨key, cv, m₁, m₂, hrun₁, hrun₂, hdone₁, hdone₂⟩

/-- Settles O36: two runs of an ECB or CBC command with the same inputs run one job, which leaves the same bytes
wherever it writes; two runs of KSCHED expand the same key. -/
theorem commandsAreDeterministic : Obligations.CommandsAreDeterministic := by
  refine ⟨fun i mode dir traced s₁ s₂ hi hregs hargs₁ hargs₂ hdefined hkey hiv hsrc => ?_,
    fun s₁ s₂ hkaddr hrange₁ hrange₂ hdefined hkey => ?_⟩
  · have hsame : s₁.SameInputs mode s₂ := ⟨hregs, hkey, hiv, hsrc⟩
    obtain ⟨key, cv, m₁, m₂, hrun₁, hrun₂, hdone₁, hdone₂⟩ :=
      hsame.blockCommand_completes (dir := dir) hargs₁ hargs₂ hdefined
    have hlen : s₁.len.toNat = 16 * s₁.blocks := by
      obtain ⟨⟨_, hmul⟩, _⟩ := hargs₁
      exact State.len_eq_blocks hmul
    have agree {a : Nat} (hw : ∃ c < s₁.blocks, (jobOf mode dir traced (keyExpand key) s₁).Writes (0 + c) a) :
        m₁.read a = m₂.read a :=
      runBlocks_read_congr (jobOf_rks_length ..) (hlen ▸ hsrc) hrun₁ hrun₂ (.inr hw)
    refine ⟨_, _, (exec_of_shape hi s₁).trans (congrArg _ hdone₁), (exec_of_shape hi s₂).trans (congrArg _ hdone₂),
      rfl, rfl, fun k hk => agree ⟨k / 16, by omega, .inl ?_⟩, fun ht k hk => agree ⟨k / 1536, by lia, .inr ⟨ht, ?_⟩⟩⟩
    · simp only [jobOf]
      omega
    · simp only [jobOf]
      lia
  · obtain ⟨key, hkey₁⟩ := Option.isSome_iff_exists.1 (loadBlock_isSome_iff.2 hdefined)
    have hkey₂ : loadBlock s₂.mem s₂.kaddr.toNat = some key := by
      rw [← hkaddr, ← loadBlock_congr hkey, hkey₁]
    exact ⟨_, _, exec_ksched_of_key hrange₁ hkey₁, exec_ksched_of_key hrange₂ hkey₂, rfl, rfl⟩

end Sys2Proof.Machine
end

section
/-! PROOF. The statements about the round engine (42_round_engine.md R150–R157): the order of its keys, the layout of its
records, its rounds and their inverse. -/

namespace Sys2Proof.Machine

/-! ### The keys of a direction (R154) and the bytes of a record (R156) -/

/-- A decryption uses the encryption's keys reversed end to end. -/
theorem keySequence_decrypt (rk : Vector Word 32) : keySequence .decrypt rk = (keySequence .encrypt rk).reverse := rfl

/-- Settles O20: position `i` of the reversed sequence is position 31 − i of the sequence. -/
theorem keyOrderFollowsDirection : Obligations.KeyOrderFollowsDirection := by
  intro rk i
  have hlen : (keySequence .encrypt rk).length = 32 := keySequence_length .encrypt rk
  have hkey (k : Nat) (hk : k < 32) : (keySequence .encrypt rk)[k]? = some rk[k] := by simp [keySequence, hk]
  refine ⟨hkey i.val i.isLt, ?_⟩
  rw [keySequence_decrypt, List.getElem?_reverse (by omega), hlen]
  exact hkey (31 - i.val) (by omega)

/-- Settles O21: a record's bytes are its twelve words unpacked, and packing takes them back. -/
theorem traceRecordLayout : Obligations.TraceRecordLayout :=
  fun r => ⟨r.bytes_length, bytesToWords_wordsToBytes r.words⟩

/-! ### A round undone (R152) and Crypt undone (R155) -/

/-- A round read backwards: on the output state reversed, the same round gives the input state reversed, since the word
a round changes does not enter what it is XORed with. -/
theorem roundOf_reverse_next (x : Quad) (rk : Word) :
    (roundOf (roundOf x rk).next.reverse rk).next = x.reverse := by
  have htemp : x.x3 ^^^ x.x2 ^^^ x.x1 ^^^ rk = x.x1 ^^^ x.x2 ^^^ x.x3 ^^^ rk := by
    rw [BitVec.xor_comm x.x3, BitVec.xor_comm _ x.x1, ← BitVec.xor_assoc]
  simp only [roundOf, Quad.reverse, htemp]
  rw [BitVec.xor_assoc, BitVec.xor_self, BitVec.xor_zero]

/-- Settles O18: the round between two reversals is its inverse. -/
theorem roundIsBijective : Obligations.RoundIsBijective := by
  refine fun rk => ⟨fun x y h => ?_, fun y => ⟨(roundOf y.reverse rk).next.reverse, ?_⟩⟩
  · have hrev : x.reverse = y.reverse := by rw [← roundOf_reverse_next x rk, h, roundOf_reverse_next]
    simpa using congrArg Quad.reverse hrev
  · rw [roundOf_reverse_next, Quad.reverse_reverse]

/-- The rounds with the keys in reverse order, run on the last state reversed, lead back to the first state reversed. -/
theorem cryptRounds_reverse (i j : Nat) (x : Quad) (ks : List Word) :
    (cryptRounds i (cryptRounds j x ks).1.reverse ks.reverse).1 = x.reverse := by
  induction ks generalizing j x with
  | nil => rfl
  | cons k ks ih =>
    have hback := ih (j + 1) (roundOf x k).next
    simp only [List.reverse_cons, cryptRounds_append, cryptRounds, hback, roundOf_reverse_next]

/-- Crypt with the reversed keys undoes Crypt, since its final reversal is the one the inverse starts from. -/
theorem crypt_crypt_reverse (b : Quad) (rks : List Word) : (crypt (crypt b rks).1 rks.reverse).1 = b := by
  simp only [crypt, cryptRounds_reverse, Quad.reverse_reverse]

/-- Settles O19: for any keys by induction on them, and a decryption's keys are an encryption's reversed. -/
theorem decryptionInvertsEncryption : Obligations.DecryptionInvertsEncryption :=
  ⟨crypt_crypt_reverse, fun b key => by rw [keySequence_decrypt, crypt_crypt_reverse]⟩

/-! ### The sequence X (R153) -/

/-- The state before round `i` of Crypt's rounds from `x` on. -/
def roundState (ks : List Word) (x : Quad) : Nat → Quad
  | 0 => x
  | i + 1 => (roundOf (roundState ks x i) (ks.getD i 0#32)).next

/-- Word `i` of the sequence X of R153: the state before round `i` begins with it. -/
def roundWord (ks : List Word) (x : Quad) (i : Nat) : Word := (roundState ks x i).x0

/-- The state before round `i` is four consecutive words of the sequence: each round shifts one word out. -/
theorem roundState_eq_words (ks : List Word) (x : Quad) (i : Nat) :
    roundState ks x i = ⟨roundWord ks x i, roundWord ks x (i + 1), roundWord ks x (i + 2), roundWord ks x (i + 3)⟩ := rfl

/-- The states after a first round are those of the remaining keys from its output on. -/
theorem roundState_cons_succ (k : Word) (ks : List Word) (x : Quad) (i : Nat) :
    roundState (k :: ks) x (i + 1) = roundState ks (roundOf x k).next i := by
  induction i with
  | zero => rfl
  | succ i ih => rw [roundState, ih, List.getD_cons_succ, roundState]

/-- The record of round `i` from the state `x` with the key `k` (R156). -/
def roundRecord (i : Nat) (x : Quad) (k : Word) : TraceRecord :=
  ⟨i, x, k, (roundOf x k).sboxOut, (roundOf x k).linOut, (roundOf x k).next⟩

/-- The rounds end in the state after the last key. -/
theorem cryptRounds_fst_eq_roundState (i : Nat) (x : Quad) (ks : List Word) :
    (cryptRounds i x ks).1 = roundState ks x ks.length := by
  induction ks generalizing i x with
  | nil => rfl
  | cons k ks ih => rw [List.length_cons, roundState_cons_succ, ← ih (i + 1), cryptRounds]

/-- Record `r` of the rounds from `i` on is that of round i + r, from the state before it. -/
theorem cryptRounds_getElem? (i : Nat) (x : Quad) {ks : List Word} {r : Nat} (hr : r < ks.length) :
    (cryptRounds i x ks).2[r]? = some (roundRecord (i + r) (roundState ks x r) (ks.getD r 0#32)) := by
  induction ks generalizing i x r with
  | nil => cases hr
  | cons k ks ih =>
    cases r with
    | zero => rfl
    | succ r =>
      rw [roundState_cons_succ, List.getD_cons_succ, cryptRounds, List.getElem?_cons_succ,
        ih (i + 1) _ (Nat.lt_of_succ_lt_succ hr), Nat.add_right_comm, Nat.add_assoc]

/-- Settles O17: X is the sequence of first words of the states, and record `i` is that of the state before round `i`. -/
theorem cryptRunsThirtyTwoRounds : Obligations.CryptRunsThirtyTwoRounds := by
  intro b rks hlen
  refine ⟨roundWord rks b, ⟨rfl, rfl, rfl, rfl⟩, ?_, ?_, fun i hi => ⟨_, _, rfl, rfl, rfl, ?_⟩⟩
  · rw [crypt, cryptRounds_fst_eq_roundState, hlen, roundState_eq_words, Quad.reverse]
  · rw [crypt_records_length, hlen]
  · refine (cryptRounds_getElem? 0 b (hlen.symm ▸ hi)).trans ?_
    rw [Nat.zero_add]
    rfl

end Sys2Proof.Machine
end

section
/-! PROOF. The statements about the block transform in the ECB and CBC commands on separate regions: the trace records
(42_round_engine.md R157, 43_block_modes.md R175) and the two round trips (42_round_engine.md R155). -/

namespace Sys2Proof.Machine

/-! ### What a command computes on separate regions (43_block_modes.md R174–R181) -/

/-- What a region of `n` defined blocks holds. -/
theorem exists_loadBlocks {m : Memory} {a n : Nat} (h : m.definedOn a (16 * n)) :
    ∃ x : Nat → Quad, ∀ b < n, loadBlock m (a + 16 * b) = some (x b) := by
  refine ⟨fun b => (loadBlock m (a + 16 * b)).getD ⟨0, 0, 0, 0⟩, fun b hb => ?_⟩
  have hdef : m.definedOn (a + 16 * b) 16 := fun k hk => by
    rw [Nat.add_assoc]
    exact h (16 * b + k) (by omega)
  obtain ⟨q, hq⟩ := Option.isSome_iff_exists.1 (loadBlock_isSome_iff.2 hdef)
  simp only [hq, Option.getD_some]

/-- The output block for the input block `x` after the chain value `cv`. -/
def blockOutput (j : BlockJob) (cv x : Quad) : Quad :=
  chainOutput j.mode j.dir cv (crypt (chainInput j.mode j.dir cv x) j.rks).1

/-- The state in which an ECB or CBC command ends that has read the key `key` and left the memory `m`. -/
abbrev State.afterBlocks (s : State) (key : Quad) (m : Memory) : State :=
  ({ s with rkf := keyExpand key, mem := m } : State).finish

/-- A completed run of an ECB or CBC command on separate regions: the key, the chain value before block 0 and the input
blocks that it reads from the first memory, and the memory its block loop leaves. -/
structure State.BlockRun (s : State) (mode : Mode) (dir : Dir) (traced : Bool) (key cv : Quad) (x : Nat → Quad)
    (m : Memory) : Prop where
  loadKey : loadBlock s.mem s.kaddr.toNat = some key
  loadChain : firstChain mode s = some cv
  loadInput : ∀ b < s.blocks, loadBlock s.mem (s.src.toNat + 16 * b) = some (x b)
  separate : (jobOf mode dir traced (keyExpand key) s).Separate s.blocks 0
  loop : runBlocks (jobOf mode dir traced (keyExpand key) s) s.blocks 0 cv s.mem = some m
  completes : blockCommand mode dir traced s = s.afterBlocks key m

/-- Regions that are separate in the state are separate for the block loop. -/
theorem jobOf_separate {s : State} {traced : Bool} (hlen : s.len.toNat % 16 = 0) (h : s.separate traced) (mode : Mode)
    (dir : Dir) (rk : Vector Word 32) : (jobOf mode dir traced rk s).Separate s.blocks 0 := by
  obtain ⟨hdst, htrace⟩ := h
  rw [State.len_eq_blocks hlen] at hdst htrace
  refine ⟨?_, fun ht => ?_, fun ht => ?_⟩ <;> simp only [jobOf, Nat.zero_add, Nat.mul_zero, Nat.add_zero]
  · exact hdst.imp_left (congrArg BitVec.toNat)
  · exact (htrace ht).1
  · exact (htrace ht).2

/-- With good arguments, defined inputs and separate regions an ECB or CBC command makes such a run. -/
theorem exists_blockRun {s : State} {mode : Mode} (dir : Dir) {traced : Bool} (hargs : s.argsOk mode traced)
    (hinputs : s.inputsDefined mode) (hsep : s.separate traced) :
    ∃ key cv x m, s.BlockRun mode dir traced key cv x m := by
  have ⟨⟨_, hmul⟩, _⟩ := hargs
  have ⟨_, _, hsrc⟩ := hinputs
  obtain ⟨key, cv, m, hkey, hcv, hrun, hdone⟩ :=
    blockCommand_completes (dir := dir) hargs (State.readsDefined_of_inputsDefined traced hinputs)
  obtain ⟨x, hx⟩ := exists_loadBlocks (State.len_eq_blocks hmul ▸ hsrc)
  exact ⟨key, cv, x, m, hkey, hcv, hx, jobOf_separate hmul hsep mode dir (keyExpand key), hrun, hdone⟩

section
variable {s : State} {mode : Mode} {dir : Dir} {traced : Bool} {key cv : Quad} {x : Nat → Quad} {m : Memory}

/-- The input blocks, as the laws of the block loop name their addresses. -/
theorem State.BlockRun.loadInput_from_zero (h : s.BlockRun mode dir traced key cv x m) :
    ∀ b < s.blocks, loadBlock s.mem ((jobOf mode dir traced (keyExpand key) s).src + 16 * (0 + b)) = some (x b) :=
  fun b hb => by
    rw [Nat.zero_add]
    exact h.loadInput b hb

/-- Output block `b` of a run (R176–R179). -/
theorem State.BlockRun.output (h : s.BlockRun mode dir traced key cv x m) {b : Nat} (hb : b < s.blocks) :
    loadBlock m (s.dst.toNat + 16 * b) =
      some (blockOutput (jobOf mode dir traced (keyExpand key) s)
        (chainAt (jobOf mode dir traced (keyExpand key) s) cv x b) (x b)) := by
  have hout := runBlocks_output (jobOf_rks_length ..) h.separate h.loadInput_from_zero h.loop hb
  rw [Nat.zero_add] at hout
  exact hout

/-- Record `r` of block `b` of a traced run (R175). -/
theorem State.BlockRun.record (h : s.BlockRun mode dir true key cv x m) {b r : Nat} (hb : b < s.blocks) (hr : r < 32) :
    ∃ rec, (crypt (chainInput mode dir (chainAt (jobOf mode dir true (keyExpand key) s) cv x b) (x b))
        (keySequence dir (keyExpand key))).2[r]? = some rec ∧
      memRead m (s.taddr.toNat + 1536 * b + 48 * r) 48 = some rec.bytes := by
  have hlen : r < (crypt (chainInput mode dir (chainAt (jobOf mode dir true (keyExpand key) s) cv x b) (x b))
      (keySequence dir (keyExpand key))).2.length := by simpa using hr
  have hrec := runBlocks_record (jobOf_rks_length ..) h.separate h.loadInput_from_zero h.loop rfl hb hlen
  rw [Nat.zero_add] at hrec
  exact ⟨_, List.getElem?_eq_getElem hlen, hrec⟩

/-- An untraced run leaves alone every byte outside its output region. -/
theorem State.BlockRun.read_outside (h : s.BlockRun mode dir false key cv x m) {a : Nat}
    (ha : outside a s.dst.toNat (16 * s.blocks)) : m.read a = s.mem.read a :=
  runBlocks_read_outside (jobOf_rks_length ..) h.loop (by simpa [jobOf] using ha) nofun

/-- A run makes no byte undefined. -/
theorem State.BlockRun.keeps_defined (h : s.BlockRun mode dir traced key cv x m) {a n : Nat}
    (hd : s.mem.definedOn a n) : m.definedOn a n :=
  fun k hk => (runBlocks_read_isSome_iff (jobOf_rks_length ..) h.loop).2 (.inl (hd k hk))

end

/-! ### Trace records (R157, R175) -/

/-- CBC.ENC.T is the one command word of its shape (30_encoding.md R87). -/
theorem commandShape_eq_cbcEncT_iff {i : Instr} : commandShape i = some (.cbc, .encrypt, true) ↔ i = .cbcEncT := by
  cases i <;> decide

/-- Except in CBC encryption the input block itself enters the block transform. -/
theorem chainInput_of_not_cbcEncrypt {mode : Mode} {dir : Dir} (h : ¬ (mode = .cbc ∧ dir = .encrypt)) (cv x : Quad) :
    chainInput mode dir cv x = x := by
  cases mode <;> cases dir
  case cbc.encrypt => exact absurd ⟨rfl, rfl⟩ h
  all_goals rfl

/-- In CBC encryption the chain value before block b + 1 is output block `b` (R178). -/
theorem State.BlockRun.cbcEncrypt_chain {s : State} {traced : Bool} {key iv : Quad} {x : Nat → Quad} {m : Memory}
    (h : s.BlockRun .cbc .encrypt traced key iv x m) {b : Nat} (hb : b < s.blocks) :
    loadBlock m (s.dst.toNat + 16 * b) =
      some (chainAt (jobOf .cbc .encrypt traced (keyExpand key) s) iv x (b + 1)) := h.output hb

/-- Settles O27: what the block transform records of each block, which for CBC.ENC.T is the block chained with the IV or
with the output block before it. -/
theorem traceRecordsAreWritten : Obligations.TraceRecordsAreWritten := by
  intro i mode dir s hi hargs hinputs hsep
  obtain ⟨key, cv, x, m, hrun⟩ := exists_blockRun dir hargs hinputs hsep
  refine ⟨_, key, (exec_of_shape hi s).trans (congrArg _ hrun.completes), loadBlock_eq_some_iff.1 hrun.loadKey,
    fun b hb => ⟨x b, _, loadBlock_eq_some_iff.1 (hrun.loadInput b hb), ?_, fun r hr => hrun.record hb hr⟩⟩
  by_cases hce : mode = .cbc ∧ dir = .encrypt
  · obtain ⟨rfl, rfl⟩ := hce
    rw [if_pos (commandShape_eq_cbcEncT_iff.1 hi)]
    refine ⟨_, rfl, ?_⟩
    cases b with
    | zero => exact loadBlock_eq_some_iff.1 hrun.loadChain
    | succ b => exact loadBlock_eq_some_iff.1 (hrun.cbcEncrypt_chain (Nat.lt_of_succ_lt hb))
  · have hne : i ≠ .cbcEncT := by
      rintro rfl
      cases hi
      exact hce ⟨rfl, rfl⟩
    rw [if_neg hne, chainInput_of_not_cbcEncrypt hce]

/-! ### The round trips (R155, R176–R180) -/

/-- Decrypting the output block of an encryption, after the same chain value, gives the input block. -/
theorem blockOutput_decrypt_encrypt (mode : Mode) (rk : Vector Word 32) (s t : State) (trc trc' : Bool) (cv x : Quad) :
    blockOutput (jobOf mode .decrypt trc' rk t) cv (blockOutput (jobOf mode .encrypt trc rk s) cv x) = x := by
  cases mode <;>
    simp only [blockOutput, jobOf, chainInput, chainOutput, keySequence_decrypt, crypt_crypt_reverse,
      Quad.xor_xor_cancel]

/-- Decryption chains the block that encryption chained: in CBC the ciphertext, in ECB none. -/
theorem blockChain_decrypt_encrypt (mode : Mode) (rk : Vector Word 32) (s t : State) (trc trc' : Bool) (cv x : Quad) :
    blockChain (jobOf mode .decrypt trc' rk t) cv (blockOutput (jobOf mode .encrypt trc rk s) cv x) =
      blockChain (jobOf mode .encrypt trc rk s) cv x := by
  cases mode <;> rfl

/-- A decryption of the output blocks of an encryption passes through the same chain values. -/
theorem chainAt_decrypt_encrypt {mode : Mode} {rk : Vector Word 32} {s t : State} {trc trc' : Bool} {cv : Quad}
    {x y : Nat → Quad} {n : Nat}
    (h : ∀ b < n, y b = blockOutput (jobOf mode .encrypt trc rk s) (chainAt (jobOf mode .encrypt trc rk s) cv x b) (x b))
    {b : Nat} (hb : b ≤ n) :
    chainAt (jobOf mode .decrypt trc' rk t) cv y b = chainAt (jobOf mode .encrypt trc rk s) cv x b := by
  induction b with
  | zero => rfl
  | succ b ih => rw [chainAt, ih (Nat.le_of_succ_le hb), h b hb, blockChain_decrypt_encrypt, chainAt]

/-- Memories that hold the same block at an address agree on its sixteen bytes. -/
theorem read_eq_of_loadBlock_eq {m₁ m₂ : Memory} {a : Nat} {q : Quad} (h₁ : loadBlock m₁ a = some q)
    (h₂ : loadBlock m₂ a = some q) {k : Nat} (hk : k < 16) : m₁.read (a + k) = m₂.read (a + k) := by
  obtain ⟨hlen, hread₁⟩ := memRead_eq_some_iff.1 (loadBlock_eq_some_iff.1 h₁)
  obtain ⟨_, hread₂⟩ := memRead_eq_some_iff.1 (loadBlock_eq_some_iff.1 h₂)
  rw [hread₁ k (hlen.symm ▸ hk), hread₂ k (hlen.symm ▸ hk)]

/-- Memories that hold the same blocks in a region and the same bytes outside it read the same everywhere. -/
theorem read_eq_of_loadBlocks_eq {m₁ m₂ : Memory} {a n : Nat} {x : Nat → Quad}
    (h₁ : ∀ b < n, loadBlock m₁ (a + 16 * b) = some (x b)) (h₂ : ∀ b < n, loadBlock m₂ (a + 16 * b) = some (x b))
    (hout : ∀ c, outside c a (16 * n) → m₁.read c = m₂.read c) (c : Nat) : m₁.read c = m₂.read c := by
  by_cases hc : outside c a (16 * n)
  · exact hout c hc
  · obtain ⟨b, k, hb, hk, rfl⟩ : ∃ b k, b < n ∧ k < 16 ∧ c = a + 16 * b + k :=
      ⟨(c - a) / 16, (c - a) % 16, by omega, by omega, by omega⟩
    exact read_eq_of_loadBlock_eq (h₁ b hb) (h₂ b hb) hk

section
variable {s : State} {mode : Mode} {key cv : Quad} {x : Nat → Quad} {m : Memory}

/-- An untraced run leaves a block that lies apart from its output. -/
theorem State.BlockRun.loadBlock_apart {dir : Dir} (h : s.BlockRun mode dir false key cv x m) {a : Nat}
    (ha : apart a 16 s.dst.toNat (16 * s.blocks)) : loadBlock m a = loadBlock s.mem a :=
  loadBlock_congr fun _ _ => h.read_outside (by omega)

/-- The inputs of a run are defined after it too. -/
theorem State.BlockRun.inputsDefined_after {dir : Dir} {traced : Bool} (h : s.BlockRun mode dir traced key cv x m)
    (hinputs : s.inputsDefined mode) : (s.afterBlocks key m).inputsDefined mode := by
  obtain ⟨hkey, hiv, hsrc⟩ := hinputs
  exact ⟨h.keeps_defined hkey, fun hm => h.keeps_defined (hiv hm), h.keeps_defined hsrc⟩

/-- The run after an untraced one reads the same key where it lies apart from the output. -/
theorem State.BlockRun.next_key {dir dir' : Dir} {traced' : Bool} {key' cv' : Quad} {y : Nat → Quad} {m' : Memory}
    (h : s.BlockRun mode dir false key cv x m)
    (h' : (s.afterBlocks key m).BlockRun mode dir' traced' key' cv' y m')
    (ha : apart s.kaddr.toNat 16 s.dst.toNat (16 * s.blocks)) : key' = key :=
  Option.some.inj (h'.loadKey.symm.trans ((h.loadBlock_apart ha).trans h.loadKey))

/-- The run after an untraced one starts from the same chain value where the IV lies apart from the output. -/
theorem State.BlockRun.next_chain {dir dir' : Dir} {traced' : Bool} {key' cv' : Quad} {y : Nat → Quad} {m' : Memory}
    (h : s.BlockRun mode dir false key cv x m)
    (h' : (s.afterBlocks key m).BlockRun mode dir' traced' key' cv' y m')
    (ha : mode = .cbc → apart s.ivaddr.toNat 16 s.dst.toNat (16 * s.blocks)) : cv' = cv := by
  have hchain : firstChain mode (s.afterBlocks key m) = firstChain mode s := by
    cases mode with
    | ecb => rfl
    | cbc => exact h.loadBlock_apart (ha rfl)
  exact Option.some.inj (h'.loadChain.symm.trans (hchain.trans h.loadChain))

/-- A decryption in place after an encryption in place with the same key and first chain value restores every byte: its
input blocks are the output blocks of the encryption. -/
theorem State.BlockRun.decrypt_restores {y : Nat → Quad} {m' : Memory} (h : s.BlockRun mode .encrypt false key cv x m)
    (h' : (s.afterBlocks key m).BlockRun mode .decrypt false key cv y m') (hdst : s.dst = s.src) (a : Nat) :
    m'.read a = s.mem.read a := by
  have hy : ∀ b < s.blocks, y b = blockOutput (jobOf mode .encrypt false (keyExpand key) s)
      (chainAt (jobOf mode .encrypt false (keyExpand key) s) cv x b) (x b) := fun b hb =>
    Option.some.inj ((h'.loadInput b hb).symm.trans (hdst ▸ h.output hb))
  refine read_eq_of_loadBlocks_eq (n := s.blocks) (fun b hb => ?_) h.loadInput (fun c hc => ?_) a
  · have hout := h'.output hb
    rw [chainAt_decrypt_encrypt hy (Nat.le_of_lt hb), hy b hb, blockOutput_decrypt_encrypt] at hout
    exact hdst ▸ hout
  · rw [← hdst] at hc
    exact (h'.read_outside hc).trans (h.read_outside hc)

end

/-- With good arguments, defined inputs and the key and for CBC the IV apart from the data, an encryption in place and
then the decryption in place both complete, and restore every byte of MEM. -/
theorem decrypt_encrypt_inPlace {s : State} {mode : Mode} (hargs : s.argsOk mode false) (hinputs : s.inputsDefined mode)
    (hdst : s.dst = s.src) (hkey : apart s.kaddr.toNat 16 s.src.toNat s.len.toNat)
    (hiv : mode = .cbc → apart s.ivaddr.toNat 16 s.src.toNat s.len.toNat) :
    ∃ t u, blockCommand mode .encrypt false s = t ∧ blockCommand mode .decrypt false t = u ∧ u.rkf = t.rkf ∧
      u.status = 0x00000002#32 ∧ ∀ a, u.mem.read a = s.mem.read a := by
  have hlen : s.len.toNat = 16 * s.blocks := by
    obtain ⟨⟨_, hmul⟩, _⟩ := hargs
    exact State.len_eq_blocks hmul
  rw [hlen, ← hdst] at hkey hiv
  have hsep : s.separate false := ⟨.inl hdst, nofun⟩
  obtain ⟨key, cv, x, m, h⟩ := exists_blockRun .encrypt hargs hinputs hsep
  obtain ⟨key', cv', y, m', h'⟩ :=
    exists_blockRun (s := s.afterBlocks key m) .decrypt hargs (h.inputsDefined_after hinputs) hsep
  obtain rfl := h.next_key h' hkey
  obtain rfl := h.next_chain h' hiv
  exact ⟨_, _, h.completes, h'.completes, rfl, rfl, h.decrypt_restores h' hdst⟩

/-- Settles O37: the round trip in place for ECB, which reads no IV. -/
theorem ecbRoundTripRestoresMemory : Obligations.EcbRoundTripRestoresMemory := by
  intro s hargs hinputs hdst hkey
  obtain ⟨t, u, ht, hu, hrest⟩ := decrypt_encrypt_inPlace hargs hinputs hdst hkey nofun
  exact ⟨t, u, (exec_of_shape rfl s).trans (congrArg _ ht), (exec_of_shape rfl t).trans (congrArg _ hu), hrest⟩

/-- Settles O38: the round trip in place for CBC. -/
theorem cbcRoundTripRestoresMemory : Obligations.CbcRoundTripRestoresMemory := by
  intro s hargs hinputs hdst hkey hiv
  obtain ⟨t, u, ht, hu, hrest⟩ := decrypt_encrypt_inPlace hargs hinputs hdst hkey fun _ => hiv
  exact ⟨t, u, (exec_of_shape rfl s).trans (congrArg _ ht), (exec_of_shape rfl t).trans (congrArg _ hu), hrest⟩

end Sys2Proof.Machine
end

section
/-! PROOF. The statements about the ECB and CBC commands (43_block_modes.md R170–R182): what they write on separate
regions and on any regions, what they leave alone, and how they are issued and complete. -/

namespace Sys2Proof.Machine

/-! ### Each output block on separate regions (R176–R180) -/

/-- The untraced and the traced command word of a mode and direction have one shape but for the trace (30_encoding.md
R83). -/
theorem commandShape_of_traced {i i₁ i₂ : Instr} {mode : Mode} {dir : Dir} {traced : Bool}
    (hi : i = i₁ ∧ traced = false ∨ i = i₂ ∧ traced = true) (h₁ : commandShape i₁ = some (mode, dir, false))
    (h₂ : commandShape i₂ = some (mode, dir, true)) : commandShape i = some (mode, dir, traced) := by
  rcases hi with ⟨rfl, rfl⟩ | ⟨rfl, rfl⟩
  · exact h₁
  · exact h₂

/-- A command word of a run's shape ends in the state of that run. -/
theorem State.BlockRun.exec_eq {s : State} {mode : Mode} {dir : Dir} {traced : Bool} {key cv : Quad} {x : Nat → Quad}
    {m : Memory} (h : s.BlockRun mode dir traced key cv x m) {i : Instr}
    (hi : commandShape i = some (mode, dir, traced)) : exec i s = .next (s.afterBlocks key m) :=
  (exec_of_shape hi s).trans (congrArg _ h.completes)

/-- Output block `b` of an ECB run is the block transform of input block `b` (R176, R177). -/
theorem State.BlockRun.ecb_output {s : State} {dir : Dir} {traced : Bool} {key cv : Quad} {x : Nat → Quad} {m : Memory}
    (h : s.BlockRun .ecb dir traced key cv x m) {b : Nat} (hb : b < s.blocks) :
    memRead m (s.dst.toNat + 16 * b) 16 = some (crypt (x b) (keySequence dir (keyExpand key))).1.bytes :=
  loadBlock_eq_some_iff.1 (h.output hb)

/-- An ECB command of either direction writes to each block of DST what the block transform, with the keys of its
direction, makes of the same block of SRC. -/
theorem exec_ecb_each_block {i : Instr} {dir : Dir} {traced : Bool} {s : State}
    (hi : commandShape i = some (.ecb, dir, traced)) (hargs : s.argsOk .ecb traced) (hinputs : s.inputsDefined .ecb)
    (hsep : s.separate traced) :
    ∃ (t : State) (key : Quad), exec i s = .next t ∧ memRead s.mem s.kaddr.toNat 16 = some key.bytes ∧
      t.rkf = keyExpand key ∧ t.status = 0x00000002#32 ∧
      ∀ b < s.blocks, ∃ x, memRead s.mem (s.src.toNat + 16 * b) 16 = some x.bytes ∧
        memRead t.mem (s.dst.toNat + 16 * b) 16 = some (crypt x (keySequence dir (keyExpand key))).1.bytes := by
  obtain ⟨key, cv, x, m, hrun⟩ := exists_blockRun dir hargs hinputs hsep
  exact ⟨_, key, hrun.exec_eq hi, loadBlock_eq_some_iff.1 hrun.loadKey, rfl, rfl,
    fun b hb => ⟨x b, loadBlock_eq_some_iff.1 (hrun.loadInput b hb), hrun.ecb_output hb⟩⟩

/-- Settles O23: an encryption's keys are the key's round keys in derivation order. -/
theorem ecbEncryptsEachBlock : Obligations.EcbEncryptsEachBlock := by
  intro i traced s hi hargs hinputs hsep
  have hshape : commandShape i = some (.ecb, .encrypt, traced) := commandShape_of_traced hi rfl rfl
  simpa only [keySequence] using exec_ecb_each_block hshape hargs hinputs hsep

/-- Settles O24: a decryption's keys are the key's round keys reversed end to end. -/
theorem ecbDecryptsEachBlock : Obligations.EcbDecryptsEachBlock := by
  intro i traced s hi hargs hinputs hsep
  have hshape : commandShape i = some (.ecb, .decrypt, traced) := commandShape_of_traced hi rfl rfl
  simpa only [keySequence] using exec_ecb_each_block hshape hargs hinputs hsep

/-- The chain value before block `b` of a CBC encryption: the IV, then the block computed before (R178). -/
theorem chainAt_cbcEncrypt (traced : Bool) (rk : Vector Word 32) (s : State) (iv : Quad) (x : Nat → Quad) (b : Nat) :
    chainAt (jobOf .cbc .encrypt traced rk s) iv x b =
      if b = 0 then iv else chainAt (jobOf .cbc .encrypt traced rk s) iv x (b - 1 + 1) := by
  cases b <;> rfl

/-- The chain value before block `b` of a CBC decryption: the IV, then the input block before (R179, R180). -/
theorem chainAt_cbcDecrypt (traced : Bool) (rk : Vector Word 32) (s : State) (iv : Quad) (x : Nat → Quad) (b : Nat) :
    chainAt (jobOf .cbc .decrypt traced rk s) iv x b = if b = 0 then iv else x (b - 1) := by
  cases b <;> rfl

/-- Settles O25: output block `b` is the chain value after block `b`. -/
theorem cbcEncryptChains : Obligations.CbcEncryptChains := by
  intro i traced s hi hargs hinputs hsep
  have hshape : commandShape i = some (.cbc, .encrypt, traced) := commandShape_of_traced hi rfl rfl
  obtain ⟨key, iv, x, m, hrun⟩ := exists_blockRun .encrypt hargs hinputs hsep
  refine ⟨_, key, iv, fun b => chainAt (jobOf .cbc .encrypt traced (keyExpand key) s) iv x (b + 1),
    hrun.exec_eq hshape, loadBlock_eq_some_iff.1 hrun.loadKey, loadBlock_eq_some_iff.1 hrun.loadChain, rfl, rfl,
    fun b hb => ⟨x b, loadBlock_eq_some_iff.1 (hrun.loadInput b hb),
      loadBlock_eq_some_iff.1 (hrun.cbcEncrypt_chain hb), ?_⟩⟩
  rw [← chainAt_cbcEncrypt]
  rfl

/-- Settles O26: the chain values of a decryption are the IV and the input blocks as they stood before the command. -/
theorem cbcDecryptChainsOriginal : Obligations.CbcDecryptChainsOriginal := by
  intro i traced s hi hargs hinputs hsep
  have hshape : commandShape i = some (.cbc, .decrypt, traced) := commandShape_of_traced hi rfl rfl
  obtain ⟨key, iv, x, m, hrun⟩ := exists_blockRun .decrypt hargs hinputs hsep
  refine ⟨_, key, iv, x, hrun.exec_eq hshape, loadBlock_eq_some_iff.1 hrun.loadKey,
    loadBlock_eq_some_iff.1 hrun.loadChain, rfl, rfl,
    fun b hb => ⟨loadBlock_eq_some_iff.1 (hrun.loadInput b hb), ?_⟩⟩
  rw [← chainAt_cbcDecrypt traced (keyExpand key) s]
  exact loadBlock_eq_some_iff.1 (hrun.output hb)

/-! ### Runs compared (R181, R182) -/

/-- What a run computes of its blocks does not depend on where the output lies: the chain values are the same. -/
theorem chainAt_setDst (mode : Mode) (dir : Dir) (traced : Bool) (rk : Vector Word 32) (s : State) (d : Word) (cv : Quad)
    {x y : Nat → Quad} {b : Nat} (h : ∀ k < b, x k = y k) :
    chainAt (jobOf mode dir traced rk { s with dst := d }) cv y b = chainAt (jobOf mode dir traced rk s) cv x b := by
  induction b with
  | zero => rfl
  | succ b ih =>
    rw [chainAt, chainAt, ih fun k hk => h k (Nat.lt_succ_of_lt hk), h b (Nat.lt_succ_self b)]
    rfl

/-- The bytes of a block that memory holds. -/
theorem read_of_loadBlock {m : Memory} {a : Nat} {q : Quad} (h : loadBlock m a = some q) {k : Nat} (hk : k < 16) :
    m.read (a + k) = q.bytes[k]? := by
  obtain ⟨hlen, hread⟩ := memRead_eq_some_iff.1 (loadBlock_eq_some_iff.1 h)
  rw [hread k (hlen.symm ▸ hk), List.getElem?_eq_getElem]

/-- Runs over the same memory with the same registers but DST leave the same output blocks, each at its own DST. -/
theorem State.BlockRun.output_setDst {s : State} {mode : Mode} {dir : Dir} {traced : Bool} {d : Word}
    {key cv key' cv' : Quad} {x y : Nat → Quad} {m m' : Memory} (h : s.BlockRun mode dir traced key cv x m)
    (h' : ({ s with dst := d } : State).BlockRun mode dir traced key' cv' y m') {b : Nat} (hb : b < s.blocks) :
    loadBlock m' (d.toNat + 16 * b) = loadBlock m (s.dst.toNat + 16 * b) := by
  obtain rfl : key = key' := Option.some.inj (h.loadKey.symm.trans h'.loadKey)
  obtain rfl : cv = cv' := by
    have hchain : firstChain mode { s with dst := d } = firstChain mode s := by cases mode <;> rfl
    exact Option.some.inj (h.loadChain.symm.trans (hchain.symm.trans h'.loadChain))
  have hxy : ∀ k < s.blocks, x k = y k := fun k hk =>
    Option.some.inj ((h.loadInput k hk).symm.trans (h'.loadInput k hk))
  refine (h'.output hb).trans (Eq.trans ?_ (h.output hb).symm)
  rw [chainAt_setDst mode dir traced _ s d cv fun k hk => hxy k (Nat.lt_trans hk hb), hxy b hb]
  rfl

/-- Settles O34: both runs read the same key, first chain value and input blocks, and compute the same output blocks. -/
theorem inPlaceEqualsDisjoint : Obligations.InPlaceEqualsDisjoint := by
  intro i mode dir traced s d hi hdst hargs hargs' hinputs hsep hsep' _
  obtain ⟨key, cv, x, m, h⟩ := exists_blockRun dir hargs hinputs hsep
  obtain ⟨key', cv', y, m', h'⟩ := exists_blockRun (s := { s with dst := d }) dir hargs' hinputs hsep'
  refine ⟨_, _, h.exec_eq hi, h'.exec_eq hi, fun k hk => ?_⟩
  have hlen : s.len.toNat = 16 * s.blocks := by
    obtain ⟨⟨_, hmul⟩, _⟩ := hargs
    exact State.len_eq_blocks hmul
  obtain ⟨b, r, hb, hr, rfl⟩ : ∃ b r, b < s.blocks ∧ r < 16 ∧ k = 16 * b + r :=
    ⟨k / 16, k % 16, by omega, by omega, by omega⟩
  have hout := h.output hb
  rw [← hdst, ← Nat.add_assoc, ← Nat.add_assoc]
  exact (read_of_loadBlock hout hr).trans (read_of_loadBlock ((h.output_setDst h' hb).trans hout) hr).symm

/-- A load depends on the bytes that are read only. -/
theorem loadBlock_eq_of_memRead_eq {m₁ m₂ : Memory} {a₁ a₂ : Nat} (h : memRead m₁ a₁ 16 = memRead m₂ a₂ 16) :
    loadBlock m₁ a₁ = loadBlock m₂ a₂ := by
  unfold loadBlock
  rw [h]

/-- Settles O35: in ECB the output block is the block transform of the input block with the keys of the key. -/
theorem ecbBlocksAreIndependent : Obligations.EcbBlocksAreIndependent := by
  intro i dir traced s₁ s₂ b hi hargs₁ hinputs₁ hsep₁ hargs₂ hinputs₂ hsep₂ hb₁ hb₂ hkey hin
  obtain ⟨key₁, cv₁, x₁, m₁, h₁⟩ := exists_blockRun dir hargs₁ hinputs₁ hsep₁
  obtain ⟨key₂, cv₂, x₂, m₂, h₂⟩ := exists_blockRun dir hargs₂ hinputs₂ hsep₂
  obtain rfl : key₁ = key₂ :=
    Option.some.inj (h₁.loadKey.symm.trans ((loadBlock_eq_of_memRead_eq hkey).trans h₂.loadKey))
  have hx : x₁ b = x₂ b :=
    Option.some.inj ((h₁.loadInput b hb₁).symm.trans ((loadBlock_eq_of_memRead_eq hin).trans (h₂.loadInput b hb₂)))
  refine ⟨_, _, h₁.exec_eq hi, h₂.exec_eq hi, (h₁.ecb_output hb₁).trans ?_⟩
  rw [hx]
  exact (h₂.ecb_output hb₂).symm

/-! ### Any overlap (R174, R75) -/

/-- What enters the block transform, as a condition on mode and direction (R178). -/
theorem chainInput_eq (mode : Mode) (dir : Dir) (cv x : Quad) :
    chainInput mode dir cv x = if mode = .cbc ∧ dir = .encrypt then x.xor cv else x := by
  cases mode <;> cases dir <;> rfl

/-- The output block, as a condition on mode and direction (R179). -/
theorem chainOutput_eq (mode : Mode) (dir : Dir) (cv y : Quad) :
    chainOutput mode dir cv y = if mode = .cbc ∧ dir = .decrypt then y.xor cv else y := by
  cases mode <;> cases dir <;> rfl

/-- The next chain value, as a condition on mode and direction (R178, R180). -/
theorem chainNext_eq (mode : Mode) (dir : Dir) (cv x y : Quad) :
    chainNext mode dir cv x y = if mode = .cbc then if dir = .encrypt then y else x else cv := by
  cases mode <;> cases dir <;> rfl

/-- The trace of one block transform, as 32 writes of 48 bytes in round order (R157). -/
theorem writeTrace_crypt_eq_foldl {ks : List Word} (hk : ks.length = 32) (z : Quad) (m : Memory) (a : Nat) :
    writeTrace m a (crypt z ks).2 = (List.range 32).foldl
      (fun m r => memWrite m (a + 48 * r) (((crypt z ks).2[r]?.map TraceRecord.bytes).getD [])) m :=
  writeTrace_eq_foldl ((crypt_records_length z ks).trans hk) m a

/-- Settles O28: what the block loop passes through, with each block's writes and chain value spelled out. -/
theorem overlapsFollowAccessOrder : Obligations.OverlapsFollowAccessOrder := by
  intro i mode dir traced s hi hargs hreads
  obtain ⟨key, cv, m, hkey, hcv, hrun, hdone⟩ := blockCommand_completes (dir := dir) hargs hreads
  obtain ⟨x, c, ms, hfirst, hlast, hchain, hblock⟩ := runBlocks_trajectory hrun
  rw [Nat.zero_add] at hlast
  refine ⟨_, key, c, x, ms, (exec_of_shape hi s).trans (congrArg _ hdone), loadBlock_eq_some_iff.1 hkey, rfl, rfl, ?_,
    hfirst, hlast.symm, fun b hb => ?_⟩
  · rintro rfl
    exact loadBlock_eq_some_iff.1 (hchain ▸ hcv)
  · obtain ⟨hload, hnext, hwrites⟩ := hblock b (Nat.zero_le b) (by omega)
    refine ⟨loadBlock_eq_some_iff.1 hload, _, rfl, ?_, ?_⟩
    · rw [hnext, blockChain, chainNext_eq, chainInput_eq]
      rfl
    · rw [hwrites, blockWrites_eq, chainInput_eq, chainOutput_eq, writeTrace_crypt_eq_foldl (jobOf_rks_length ..)]
      rfl

/-! ### The frame (R174, R204) -/

/-- Everything an ECB or CBC command can do: an error that shows in STATUS only, a recorded undefined read, or new round
keys and a MEM that differs in the output and trace regions only, with STATUS = 0x00000002. -/
theorem blockCommand_cases (mode : Mode) (dir : Dir) (traced : Bool) (s : State) :
    (∃ e, blockCommand mode dir traced s = s.failWith e) ∨
      blockCommand mode dir traced s = s.recordFault .undefinedRead ∨
      ∃ key m, blockCommand mode dir traced s = s.afterBlocks key m ∧
        s.sameMemoryOutside (s.afterBlocks key m) traced := by
  rcases completeWith_cases (checkBlocks mode traced s) (blockBody mode dir traced) s with
    ⟨e, _, hs⟩ | ⟨_, _, hs⟩ | ⟨t, hc, hb, hs⟩
  · exact .inl ⟨e, hs⟩
  · exact .inr (.inl hs)
  · obtain ⟨key, cv, m, _, _, hrun, rfl⟩ := blockBody_eq_some_iff.1 hb
    obtain ⟨⟨_, hmul⟩, _⟩ := checkBlocks_eq_none_iff.1 hc
    refine .inr (.inr ⟨key, m, hs, fun a hd ht => ?_⟩)
    rw [State.len_eq_blocks hmul] at hd
    exact runBlocks_read_outside (jobOf_rks_length ..) hrun (by simpa [jobOf] using hd) (by simpa [jobOf] using ht)

/-- Settles O29: none of the three endings touches an argument or the host; RKF and MEM change in the one that sets
STATUS to 0x00000002, the fault record in the one that records an undefined read (log 1). -/
theorem blockCommandsFrame : Obligations.BlockCommandsFrame := by
  intro i mode dir traced s t hi h
  obtain rfl : blockCommand mode dir traced s = t := Host.Outcome.next.inj ((exec_of_shape hi s).symm.trans h)
  rcases blockCommand_cases mode dir traced s with ⟨e, hs⟩ | hs | ⟨key, m, hs, hout⟩ <;> rw [hs]
  · exact ⟨⟨rfl, rfl, rfl, rfl, rfl, rfl, rfl⟩, ⟨rfl, rfl, rfl, rfl, rfl⟩, fun _ _ _ => rfl, fun _ => ⟨rfl, rfl⟩,
      fun hm => absurd rfl hm⟩
  · exact ⟨⟨rfl, rfl, rfl, rfl, rfl, rfl, rfl⟩, ⟨rfl, rfl, rfl, rfl, rfl⟩, fun _ _ _ => rfl, fun _ => ⟨rfl, rfl⟩,
      fun hm => ⟨State.recordFault_mfault_of_ne hm, rfl, rfl, rfl⟩⟩
  · exact ⟨⟨rfl, rfl, rfl, rfl, rfl, rfl, rfl⟩, ⟨rfl, rfl, rfl, rfl, rfl⟩, hout, fun hst => absurd rfl hst,
      fun hm => absurd rfl hm⟩

/-! ### Issue and completion (R170, R171) -/

/-- A well-formed register write of a busy engine is no issue but a hazard (70_reset_and_hazards.md R234). -/
theorem hostStep_writeReg_busy {s : State} (hb : s.busy = true) {off : BitVec 8} (hoff : off.toNat % 4 = 0) (v : Word)
    (rest : List HostEvent) :
    hostStep (.writeReg off 32 v) rest s = ({ s with host := rest } : State).recordFault .hostBusyAccess := by
  have hbusy : ({ s with host := rest } : State).busy = true := hb
  simp only [hostStep, hostWriteReg, regAccessOk_iff.2 ⟨rfl, hoff⟩, hbusy]
  rfl

/-- Settles O39: on an idle engine the write of CMD is `Issue`, on a busy one a hazard. -/
theorem issueSetsBusy : Obligations.IssueSetsBusy := by
  refine ⟨fun s w rest h => ?_, fun s w rest ⟨hm, hb, ht, hh⟩ => ?_⟩
  · have ⟨hm, _, _⟩ := h
    exact ⟨_, step_writeReg_offset (r := .cmd) h, rfl, rfl, rfl, rfl, rfl, rfl, rfl, rfl, rfl, rfl, hm, rfl, rfl, rfl⟩
  · have hbusy : ({ s with turns := s.turns - 1 } : State).busy = true := hb
    exact ⟨_, (step_host_busy hm hb ht hh).trans (congrArg _ (hostStep_writeReg_busy hbusy rfl w rest)),
      State.recordFault_mfault_of_none hm⟩

/-- After a completion the engine is idle or a model fault is recorded. -/
theorem engineStep_ends {s t : State} (h : engineStep s = .next t) : t.busy = false ∨ t.mfault ≠ none := by
  rcases engineStep_next_cases h with ⟨e, rfl⟩ | rfl | ⟨key, m, rfl, _, _⟩
  · exact .inl (statusError_fields e s).1
  · exact .inr (State.recordFault_mfault_ne_none _ s)
  · exact .inl (finish_fields _).1

/-- A pending command whose completion is next completes in one step. -/
theorem run_one_of_engineTurn {s : State} (h : s.engineTurn) :
    ∃ t, Host.Core.run core 1 s = .next t ∧ (t.busy = false ∨ t.mfault ≠ none) := by
  obtain ⟨hm, hb, ht⟩ := h
  obtain ⟨t, hstep⟩ := engineStep_isNext s
  exact ⟨t, run_succ 0 ((step_engine hm hb ht).trans hstep), engineStep_ends hstep⟩

/-- Settles O54: by induction on the host turns left; each turn is one of POLL, and with none left the engine moves. -/
theorem pendingCommandCompletes : Obligations.PendingCommandCompletes := by
  intro s hm hb hpoll
  generalize hn : s.turns = n
  induction n generalizing s with
  | zero =>
    obtain ⟨t, hrun, hend⟩ := run_one_of_engineTurn ⟨hm, hb, .inr hn⟩
    exact ⟨1, t, Nat.le_refl 1, hrun, hend⟩
  | succ n ih =>
    cases hh : s.host with
    | nil =>
      obtain ⟨t, hrun, hend⟩ := run_one_of_engineTurn ⟨hm, hb, .inl hh⟩
      exact ⟨1, t, by omega, hrun, hend⟩
    | cons e rest =>
      obtain rfl : e = .poll := hpoll e (hh ▸ List.mem_cons_self)
      have hstep := pollRepeatsWhileBusy.1 s rest ⟨hm, hb, by omega, hh⟩
      obtain ⟨k, t, hk, hrun, hend⟩ :=
        ih { s with turns := s.turns - 1, replies := s.replies ++ [.reg 0x04#8 s.status] } hm hb hpoll
          (Nat.sub_eq_of_eq_add hn)
      exact ⟨k + 1, t, by omega, (run_succ k hstep).trans hrun, hend⟩

/-- The table's reading of a word is the decoder's. -/
theorem decodeTableWord_eq_some_iff {nbits w : Nat} {i : Instr} :
    decodeTableWord nbits w = some i ↔ decode (BitVec.ofNat 32 (w % 2 ^ nbits)) = .command i := by
  unfold decodeTableWord
  cases decode (BitVec.ofNat 32 (w % 2 ^ nbits)) <;> simp

/-- Settles O6: the completion step decodes CMD and executes the command; a placed word stands in CMD (log 8). -/
theorem stepRunsDecodedInstruction : Obligations.StepRunsDecodedInstruction := by
  refine ⟨fun s i ⟨hm, hb, ht⟩ hd => ?_, fun s w i hd => ?_⟩
  · rw [step_engine hm hb ht, engineStep_of_command hd]
  · exact (step_placeCommand s _).trans (engineStep_of_command (decodeTableWord_eq_some_iff.1 hd))

end Sys2Proof.Machine
end

section
/-! PROOF. The statements about errors (60_exceptions.md R200–R204), independent instances (R215) and the idle engine
(R217). -/

namespace Sys2Proof.Machine

/-! ### Commands that end with an error (R202–R204) -/

/-- An ECB or CBC command whose check fails ends with that error, whatever its body would do. -/
theorem exec_of_failed_check {i : Instr} {mode : Mode} {dir : Dir} {traced : Bool} {s : State} {e : ErrorCode}
    (hi : commandShape i = some (mode, dir, traced)) (hc : checkBlocks mode traced s = some e) :
    exec i s = .next (s.failWith e) := by
  rw [exec_of_shape hi, blockCommand, completeWith_of_check hc]

/-- With a valid length, the check can fail for one reason only: a region the command touches is out of range (R202). -/
theorem checkBlocks_eq_addressRange {mode : Mode} {traced : Bool} {s : State} (hpos : s.len.toNat ≠ 0)
    (hmul : s.len.toNat % 16 = 0) (hbad : ¬ s.argsOk mode traced) :
    checkBlocks mode traced s = some .addressRange := by
  cases hc : checkBlocks mode traced s with
  | none => exact absurd (checkBlocks_eq_none_iff.1 hc) hbad
  | some e =>
    cases e with
    | unsupportedConfig => exact absurd hc (checkBlocks_ne_unsupportedConfig mode traced s)
    | invalidLength =>
      rcases checkBlocks_eq_invalidLength_iff.1 hc with h | h
      · exact absurd h hpos
      · exact absurd hmul h
    | addressRange => rfl

/-- Settles O30: the length is checked before any region. -/
theorem invalidLengthOutranksRange : Obligations.InvalidLengthOutranksRange := by
  intro i mode dir traced s hi hlen
  rw [exec_of_failed_check hi (checkBlocks_eq_invalidLength_iff.2 hlen), State.failWith, statusError_invalidLength]

/-- Settles O31: each of the five regions, out of range, contradicts its conjunct of good arguments. -/
theorem addressRangeIsPrecise : Obligations.AddressRangeIsPrecise := by
  intro i mode dir traced s hi hpos hmul hregion
  have hbad : ¬ s.argsOk mode traced := by
    rintro ⟨_, hkey, hiv, hsrc, hdst, htrace⟩
    rcases hregion with h | ⟨hcbc, h⟩ | h | h | ⟨htraced, h⟩
    · exact Nat.not_le_of_lt h hkey
    · exact Nat.not_le_of_lt h (hiv hcbc)
    · exact Nat.not_le_of_lt h hsrc
    · exact Nat.not_le_of_lt h hdst
    · exact Nat.not_le_of_lt h (htrace htraced)
  rw [exec_of_failed_check hi (checkBlocks_eq_addressRange hpos hmul hbad), State.failWith, statusError_addressRange]

/-- The codes a command can end with (R201). -/
theorem ErrorCode.number_mem (e : ErrorCode) : e.number = 1#32 ∨ e.number = 2#32 ∨ e.number = 3#32 := by
  cases e with
  | unsupportedConfig => exact .inl rfl
  | invalidLength => exact .inr (.inl rfl)
  | addressRange => exact .inr (.inr rfl)

/-- Settles O33: of the three endings, a recorded undefined read leaves BUSY set and a finished body leaves ERR clear;
what is left is `State.failWith`. -/
theorem errorsChangeOnlyStatus : Obligations.ErrorsChangeOnlyStatus := by
  intro s t ⟨hm, hb, ht⟩ h hidle herr
  rcases engineStep_next_cases ((step_engine hm hb ht).symm.trans h) with ⟨e, rfl⟩ | rfl | ⟨key, m, rfl, _, _⟩
  · exact ⟨e.number, e.number_mem, rfl⟩
  · have hbusy : (s.recordFault .undefinedRead).busy = true := hb
    cases hbusy.symm.trans hidle
  · obtain ⟨_, _, hok, _⟩ := finish_fields { s with rkf := keyExpand key, mem := m }
    cases hok.symm.trans herr

/-! ### Several instances (R215) -/

/-- A platform's step replaces the state of the instance that moves by that instance's next state. -/
theorem platformStep_eq_some_iff {p q : List State} {k : Nat} :
    platformStep p k = some q ↔ ∃ s t, p[k]? = some s ∧ step s = .next t ∧ q = p.set k t := by
  induction p generalizing q k with
  | nil => simp [platformStep]
  | cons s p ih =>
    cases k with
    | zero => cases hs : step s <;> simp [platformStep, hs, eq_comm]
    | succ k =>
      simp only [List.getElem?_cons_succ, List.set_cons_succ]
      constructor
      · intro h
        cases hq : platformStep p k with
        | none => simp [platformStep, hq] at h
        | some q' =>
          obtain ⟨s', t, hk, hstep, rfl⟩ := ih.1 hq
          exact ⟨s', t, hk, hstep, by simpa [platformStep, hq] using h.symm⟩
      · rintro ⟨s', t, hk, hstep, rfl⟩
        simp [platformStep, ih.2 ⟨s', t, hk, hstep, rfl⟩]

/-- Settles O55: setting one entry of a list keeps its length and its other entries. -/
theorem instancesAreIndependent : Obligations.InstancesAreIndependent := by
  intro p q k h
  obtain ⟨s, t, hs, hstep, rfl⟩ := platformStep_eq_some_iff.1 h
  obtain ⟨hk, _⟩ := List.getElem?_eq_some_iff.1 hs
  exact ⟨List.length_set, fun _ hj => List.getElem?_set_ne hj.symm, s, t, hs, List.getElem?_set_self hk, hstep⟩

/-! ### The idle engine (R217) -/

/-- Settles O51: a finished state leaves no turn to the engine or to the host, and nothing to stop for. -/
theorem idleEngineHoldsState : Obligations.IdleEngineHoldsState := by
  intro s ⟨hh, hb, hm⟩
  rcases step_cases s with ⟨r, hr, _⟩ | ⟨_, hbusy, _⟩ | ⟨e, rest, hcons, _⟩ | ⟨_, _, _, hs⟩
  · cases hm.symm.trans hr
  · cases hb.symm.trans hbusy
  · cases hh.symm.trans hcons
  · exact hs

end Sys2Proof.Machine
end

section
/-! PROOF. The statements about the platform's reset and the hazard of a busy engine (70_reset_and_hazards.md R230,
R234). -/

namespace Sys2Proof.Machine

/-! ### The platform's reset (R230) -/

/-- The turn counted down before a reset leaves no trace: the reset clears the counter. -/
theorem State.hardReset_spendTurn (s : State) : s.spendTurn.hardReset = s.hardReset := by
  simp [State.hardReset]

/-- Settles O49: the three conditions rule out a stop and a completion before the reset, so the step is the reset. -/
theorem platformResetRestoresResetState : Obligations.PlatformResetRestoresResetState := by
  intro s rest hh hcond
  rcases step_cases s with ⟨_, _, hne, _⟩ | ⟨hm, hb, ht, _⟩ | ⟨e, rest', hh', _, hs⟩ | ⟨_, _, hnil, _⟩
  · exact absurd hh (hne rest)
  · rcases hcond with hfault | hidle | hturns
    · exact absurd hm hfault
    · cases hb.symm.trans hidle
    · rcases ht with hnil | hzero
      · cases hh.symm.trans hnil
      · exact absurd hzero hturns
  · obtain ⟨rfl, rfl⟩ := List.cons.inj (hh.symm.trans hh')
    rw [hs, hostStep, State.hardReset_spendTurn, State.hardReset]
  · cases hh.symm.trans hnil

/-! ### The hazard of a busy engine (R234) -/

/-- STATUS stands at offset 0x04 and nowhere else (10_state.md R24). -/
theorem regOfOffset_eq_status_iff {off : BitVec 8} : regOfOffset off = some .status ↔ off = 0x04#8 := by
  refine ⟨fun h => ?_, fun h => h ▸ regOfOffset_offset .status⟩
  by_contra hne
  have hnat : off.toNat ≠ 0x04 := fun hoff => hne (BitVec.eq_of_toNat_eq hoff)
  rw [regOfOffset, if_neg hnat] at h
  split_ifs at h <;> cases h

/-- An access of another width or misaligned records HOST_BAD_ACCESS, of a busy engine too (log 5). -/
theorem hostStep_malformed {s : State} {off : BitVec 8} {bits : Nat} {v : Word} {e : HostEvent}
    (he : e = .writeReg off bits v ∨ e = .readReg off bits) (hbad : bits ≠ 32 ∨ off.toNat % 4 ≠ 0)
    (rest : List HostEvent) : hostStep e rest s = ({ s with host := rest } : State).recordFault .hostBadAccess := by
  rcases he with rfl | rfl
  · simp [hostStep, hostWriteReg, regAccessOk_of_malformed hbad]
  · simp [hostStep, hostReadReg, regAccessOk_of_malformed hbad]

/-- A well-formed read of a register other than STATUS is a hazard while the engine is busy. -/
theorem hostStep_readReg_busy {s : State} (hb : s.busy = true) {off : BitVec 8} (hoff : off.toNat % 4 = 0)
    (hne : off ≠ 0x04#8) (rest : List HostEvent) :
    hostStep (.readReg off 32) rest s = ({ s with host := rest } : State).recordFault .hostBusyAccess := by
  have hbusy : ({ s with host := rest } : State).busy = true := hb
  have hstatus : regOfOffset off ≠ some .status := mt regOfOffset_eq_status_iff.1 hne
  simp [hostStep, hostReadReg, regAccessOk_iff.2 ⟨rfl, hoff⟩, hbusy, hstatus]

/-- A read of STATUS replies with it, whether the engine is busy or not. -/
theorem hostStep_readStatus (s : State) (rest : List HostEvent) :
    hostStep (.readReg 0x04#8 32) rest s = ({ s with host := rest } : State).reply (.reg 0x04#8 s.status) := by
  have hread : ({ s with host := rest } : State).readOffset 0x04#8 = s.status := readOffset_offset _ .status
  simp [hostStep, hostReadReg, regAccessOk, regOfOffset_eq_status_iff.2, hread]

/-- A byte access within MEM is a hazard while the engine is busy, whatever the byte holds (log 5). -/
theorem hostStep_byte_busy {s : State} (hb : s.busy = true) {a : Nat} {e : HostEvent}
    (he : (∃ v, e = .writeByte a v) ∨ e = .readByte a) (ha : a < s.memBytes) (rest : List HostEvent) :
    hostStep e rest s = ({ s with host := rest } : State).recordFault .hostBusyAccess := by
  have hbusy : ({ s with host := rest } : State).busy = true := hb
  have hin : ¬ ({ s with host := rest } : State).memBytes ≤ a := Nat.not_le_of_lt ha
  rcases he with ⟨v, rfl⟩ | rfl
  · simp [hostStep, hostWriteByte, hin, hbusy]
  · simp [hostStep, hostReadByte, hin, hbusy]

/-- A busy engine's event that only records a model fault, once its turn is counted down, answers a state with that
fault recorded. -/
theorem step_records_of_busyHost {s : State} {e : HostEvent} {rest : List HostEvent} {r : Fault}
    (h : s.busyHost e rest)
    (he : hostStep e rest { s with turns := s.turns - 1 } =
      ({ s with turns := s.turns - 1, host := rest } : State).recordFault r) :
    ∃ t, step s = .next t ∧ t.mfault = some r := by
  obtain ⟨hm, hb, ht, hh⟩ := h
  exact ⟨_, (step_host_busy hm hb ht hh).trans (congrArg _ he), State.recordFault_mfault_of_none hm⟩

/-- Settles O44: a read of STATUS replies; the checks of R35 and R65 come before the hazard (log 5), which meets every
other access. -/
theorem busyEngineAllowsOnlyStatusReads : Obligations.BusyEngineAllowsOnlyStatusReads := by
  intro s e rest h
  have ⟨hm, hb, ht, hh⟩ := h
  have hbusy : ({ s with turns := s.turns - 1 } : State).busy = true := hb
  refine ⟨?_, fun hhazard => step_records_of_busyHost h ?_, fun hbad => step_records_of_busyHost h ?_⟩
  · rintro rfl
    exact (step_host_busy hm hb ht hh).trans (congrArg _ (hostStep_readStatus _ rest))
  · rcases hhazard with ⟨off, v, rfl, hoff⟩ | ⟨off, rfl, hoff, hne⟩ | ⟨a, v, he, ha⟩ | ⟨a, he, ha⟩
    · exact hostStep_writeReg_busy hbusy hoff v rest
    · exact hostStep_readReg_busy hbusy hoff hne rest
    · exact hostStep_byte_busy hbusy (.inl ⟨v, he⟩) ha rest
    · exact hostStep_byte_busy hbusy (.inr he) ha rest
  · rcases hbad with ⟨off, bits, v, he, hbad⟩ | ⟨a, v, he, ha⟩
    · exact hostStep_malformed he hbad rest
    · exact hostStep_beyond_memory (s := { s with turns := s.turns - 1 }) (he.imp_left fun hw => ⟨v, hw⟩) ha rest

end Sys2Proof.Machine
end
